-- ==== Sys2Proof/Word.lean ====
section
/-! DEFINITION. The plain value types of the spec's notation (00_scope.md R7): bytes, byte strings, command words,
operand-space addresses, buffer numbers. -/

namespace Sys2Proof

/-- An 8-bit unsigned value; bit 7 is the most significant (R7). -/
abbrev Byte := BitVec 8

/-- A finite sequence of bytes, byte 0 first (R7). -/
abbrev Bytes := List Byte

/-- One 16-bit command word, bit 15 the most significant (30_encoding.md R70). It is carried by value and has no
byte order. -/
abbrev CommandWord := BitVec 16

/-- A 9-bit byte address of the operand space (20_memory.md R50): an address above `0x1FF` cannot be expressed. -/
abbrev PortAddr := BitVec 9

/-- The number of an operand buffer, 0 to 7 (10_state.md R21). -/
abbrev BufIx := Fin 8

end Sys2Proof
end

