-- ==== Sys2Proof/Config.lean ====
section
/-! DEFINITION. The parameters of the engine with the value this hardware takes (00_scope.md R6). The one OPEN
parameter, `RejectKey`, is an argument of the block cipher and its value is carried in the state
(`State.rejectedKeys`, assumption log 3). -/

namespace Sys2Proof.Config

/-- `NBUF`, the number of operand buffers (R6). -/
@[simp] def nBuf : Nat := 8

/-- `BUFCAP`, the capacity of a buffer in bytes (R6). -/
@[simp] def bufCap : Nat := 24

/-- `BLOCK_BYTES`, the cipher block size (R6). -/
@[simp] def blockBytes : Nat := 8

/-- `KEY2_BYTES`, the double-length key (R6). -/
@[simp] def key2Bytes : Nat := 16

/-- `KEY3_BYTES`, the triple-length key (R6). -/
@[simp] def key3Bytes : Nat := 24

/-- `DERIV_KEY_BYTES`, the key length of the derivations (R6). -/
@[simp] def derivKeyBytes : Nat := 16

/-- `KSN_BYTES`, the full KSN length (R6). -/
@[simp] def ksnBytes : Nat := 10

/-- `KSN8_BYTES`, the working KSN length (R6). -/
@[simp] def ksn8Bytes : Nat := 8

/-- `COUNTER_BITS`, the width of the transaction counter (R6). -/
@[simp] def counterBits : Nat := 21

/-- `IPEK_KSN_BYTE7_AND` (R6). -/
def ipekKsnByte7And : Byte := 0xE0

/-- `IPEK_KEY_VARIANT` (R6). -/
def ipekKeyVariant : Bytes := [0xC0, 0xC0, 0xC0, 0xC0, 0x00, 0x00, 0x00, 0x00]

/-- `ROUND_KEY_VARIANT` (R6). -/
def roundKeyVariant : Bytes := [0xFF, 0xFF, 0xFF, 0xFF, 0x00, 0x00, 0x00, 0x00]

/-- `ROUND_KSN_AND` (R6), taken literally as 90_conflicts.md C3 resolves it. -/
def roundKsnAnd : Bytes := [0xFF, 0xFF, 0xFF, 0xFF, 0xFF, 0xE0, 0x00, 0x00]

/-- `COUNTER_BYTE5_AND`, which keeps the five top bits of the counter (R6). -/
def counterByte5And : Byte := 0x1F

end Sys2Proof.Config
end

