-- ==== Sys2Proof/Syntax.lean ====
section
/-! DEFINITION. The commands of the engine (30_encoding.md R73) and what the world outside can do to it
(10_state.md R30, 70_reset_and_hazards.md R220 and R221). -/

namespace Sys2Proof

/-- The nine commands (R73), operands in the order of R76: destination, then sources. All eight buffer numbers are
legal in every field (R71). -/
inductive Instr where
  | kexp (rd rs1 : BufIx)
  | tenc (rd rs1 rs2 : BufIx)
  | tdec (rd rs1 rs2 : BufIx)
  | xor  (rd rs1 rs2 : BufIx)
  | mski (rd rs1 : BufIx)
  | mskr (rd rs1 : BufIx)
  | ipek (rd rs1 rs2 : BufIx)
  | skr  (rd rs1 rs2 : BufIx)
  | dtk  (rd rs1 rs2 : BufIx)
deriving DecidableEq, Repr

/-- The buffer a command writes when it completes without error (10_state.md R23). -/
def Instr.dest : Instr → BufIx
  | .kexp rd _ => rd
  | .tenc rd _ _ => rd
  | .tdec rd _ _ => rd
  | .xor rd _ _ => rd
  | .mski rd _ => rd
  | .mskr rd _ => rd
  | .ipek rd _ _ => rd
  | .skr rd _ _ => rd
  | .dtk rd _ _ => rd

/-- The same command with another destination. -/
def Instr.withDest (i : Instr) (rd : BufIx) : Instr :=
  match i with
  | .kexp _ a => .kexp rd a
  | .tenc _ a b => .tenc rd a b
  | .tdec _ a b => .tdec rd a b
  | .xor _ a b => .xor rd a b
  | .mski _ a => .mski rd a
  | .mskr _ a => .mskr rd a
  | .ipek _ a b => .ipek rd a b
  | .skr _ a b => .skr rd a b
  | .dtk _ a b => .dtk rd a b

/-- The buffers a command reads: `rs1`, and `rs2` where the format is R3 (R23, R71). -/
def Instr.sources : Instr → List BufIx
  | .kexp _ a => [a]
  | .tenc _ a b => [a, b]
  | .tdec _ a b => [a, b]
  | .xor _ a b => [a, b]
  | .mski _ a => [a]
  | .mskr _ a => [a]
  | .ipek _ a b => [a, b]
  | .skr _ a b => [a, b]
  | .dtk _ a b => [a, b]

/-- The command's mnemonic (R73). A disassembler prints `TENC` and `TDEC` for the codec's aliases too (R77). -/
def Instr.mnemonic : Instr → String
  | .kexp .. => "KEXP"
  | .tenc .. => "TENC"
  | .tdec .. => "TDEC"
  | .xor .. => "XOR"
  | .mski .. => "MSKI"
  | .mskr .. => "MSKR"
  | .ipek .. => "IPEK"
  | .skr .. => "SKR"
  | .dtk .. => "DTK"

/-- What the outside can do to the engine: the three host transactions of R30, and reset (R220), which may also
arrive while a command is executing (R221). -/
inductive HostAction where
  /-- `H-WRITE(addr, v)`. -/
  | write (addr : PortAddr) (v : Byte)
  /-- `H-READ(addr)`. -/
  | read (addr : PortAddr)
  /-- `H-ISSUE(w)`. -/
  | issue (w : CommandWord)
  /-- The reset input, between transactions. -/
  | reset
  /-- An `H-ISSUE(w)` that a reset cuts short (R221; assumption log 4). -/
  | issueCutByReset (w : CommandWord)
deriving DecidableEq, Repr

end Sys2Proof
end

