-- ==== Sys2Proof/WellFormed.lean ====
section
/-! DEFINITION. What makes a command word legal (30_encoding.md R74) and a command well-formed (R71). -/

namespace Sys2Proof

/-- R74 (a): `op = w[15:12]` is one of `0x1` to `0x9`. -/
def opAssigned (w : CommandWord) : Bool :=
  decide (1 ≤ (w.extractLsb' 12 4).toNat) && decide ((w.extractLsb' 12 4).toNat ≤ 9)

/-- R74 (b): `zero = w[2:0]` is `000`. -/
def zeroClear (w : CommandWord) : Bool :=
  w.extractLsb' 0 3 == 0

/-- R74 (c): in a format R2 command (`op` `0x1`, `0x5` or `0x6`) the field `w[5:3]` is `000`. -/
def zero2Clear (w : CommandWord) : Bool :=
  !([0x1#4, 0x5#4, 0x6#4].contains (w.extractLsb' 12 4)) || w.extractLsb' 3 3 == 0

/-- A word is legal exactly when none of the three conditions of R74 makes it illegal. -/
def wordWellFormed (w : CommandWord) : Bool :=
  opAssigned w && zeroClear w && zero2Clear w

/-- A command is well-formed when every buffer it names exists (R71: "all eight values are legal in every register
field"). The type `BufIx` holds no other number, so every command is. -/
def Instr.wellFormed (i : Instr) : Bool :=
  (i.dest :: i.sources).all fun n => decide (n.val < Config.nBuf)

end Sys2Proof
end

