-- ==== Sys2Proof/Decode.lean ====
section
/-! DEFINITION. Decoding of a command word (30_encoding.md R71, R73 to R75), total on all 65536 words and rejecting by
name, and the encoder beside it (R73). -/

namespace Sys2Proof

/-- Why a word is illegal (R74). Each of the three raises the same error, `IllegalCommand`. -/
inductive Illegal where
  /-- R74 (a): `op` is `0x0` or one of `0xA` to `0xF`. -/
  | unassignedOpcode
  /-- R74 (b): `w[2:0]` is not `000`. -/
  | zeroFieldSet
  /-- R74 (c): a format R2 command whose `w[5:3]` is not `000`. -/
  | zero2FieldSet
deriving DecidableEq, Repr

/-- `op = w[15:12]` (R71). -/
def fieldOp (w : CommandWord) : BitVec 4 := w.extractLsb' 12 4

/-- `rd = w[11:9]` (R71). -/
def fieldRd (w : CommandWord) : BufIx := (w.extractLsb' 9 3).toFin

/-- `rs1 = w[8:6]` (R71). -/
def fieldRs1 (w : CommandWord) : BufIx := (w.extractLsb' 6 3).toFin

/-- `rs2 = w[5:3]` (R71), `zero2` in format R2. -/
def fieldRs2 (w : CommandWord) : BufIx := (w.extractLsb' 3 3).toFin

/-- `zero = w[2:0]` (R71). -/
def fieldZero (w : CommandWord) : BitVec 3 := w.extractLsb' 0 3

/-- The opcodes of format R2 (R73). -/
def isFormatR2 (op : BitVec 4) : Bool :=
  op == 0x1 || op == 0x5 || op == 0x6

/-- `decode(w)` of R75, its checks in the order of the rule. -/
def decode (w : CommandWord) : Except Illegal Instr :=
  if fieldZero w ≠ 0 then .error .zeroFieldSet
  else if isFormatR2 (fieldOp w) = true ∧ fieldRs2 w ≠ 0 then .error .zero2FieldSet
  else
    match (fieldOp w).toNat with
    | 0x1 => .ok (.kexp (fieldRd w) (fieldRs1 w))
    | 0x2 => .ok (.tenc (fieldRd w) (fieldRs1 w) (fieldRs2 w))
    | 0x3 => .ok (.tdec (fieldRd w) (fieldRs1 w) (fieldRs2 w))
    | 0x4 => .ok (.xor (fieldRd w) (fieldRs1 w) (fieldRs2 w))
    | 0x5 => .ok (.mski (fieldRd w) (fieldRs1 w))
    | 0x6 => .ok (.mskr (fieldRd w) (fieldRs1 w))
    | 0x7 => .ok (.ipek (fieldRd w) (fieldRs1 w) (fieldRs2 w))
    | 0x8 => .ok (.skr (fieldRd w) (fieldRs1 w) (fieldRs2 w))
    | 0x9 => .ok (.dtk (fieldRd w) (fieldRs1 w) (fieldRs2 w))
    | _ => .error .unassignedOpcode

/-- The word of R73: `op << 12 | rd << 9 | rs1 << 6 | rs2 << 3`. -/
def packWord (op : Nat) (rd rs1 rs2 : BufIx) : CommandWord :=
  BitVec.ofNat 16 op <<< 12 ||| BitVec.ofNat 16 rd.val <<< 9 ||| BitVec.ofNat 16 rs1.val <<< 6 |||
    BitVec.ofNat 16 rs2.val <<< 3

/-- The word of a command (R73), with `rs2 = 0` in format R2. -/
def encode : Instr → CommandWord
  | .kexp rd rs1 => packWord 0x1 rd rs1 0
  | .tenc rd rs1 rs2 => packWord 0x2 rd rs1 rs2
  | .tdec rd rs1 rs2 => packWord 0x3 rd rs1 rs2
  | .xor rd rs1 rs2 => packWord 0x4 rd rs1 rs2
  | .mski rd rs1 => packWord 0x5 rd rs1 0
  | .mskr rd rs1 => packWord 0x6 rd rs1 0
  | .ipek rd rs1 rs2 => packWord 0x7 rd rs1 rs2
  | .skr rd rs1 rs2 => packWord 0x8 rd rs1 rs2
  | .dtk rd rs1 rs2 => packWord 0x9 rd rs1 rs2

/-- The `mask` of the command's row in R73. -/
def rowMask : Instr → CommandWord
  | .kexp .. => 0xF03F
  | .mski .. => 0xF03F
  | .mskr .. => 0xF03F
  | .tenc .. => 0xF007
  | .tdec .. => 0xF007
  | .xor .. => 0xF007
  | .ipek .. => 0xF007
  | .skr .. => 0xF007
  | .dtk .. => 0xF007

/-- The `match` of the command's row in R73. -/
def rowMatch : Instr → CommandWord
  | .kexp .. => 0x1000
  | .tenc .. => 0x2000
  | .tdec .. => 0x3000
  | .xor .. => 0x4000
  | .mski .. => 0x5000
  | .mskr .. => 0x6000
  | .ipek .. => 0x7000
  | .skr .. => 0x8000
  | .dtk .. => 0x9000

/-- The low `nbits` bits of `w` as a command word, or `none` when they do not fit in 16 bits: one length only, "no
multi-word command" (R70; assumption log 8). -/
def tableWord (nbits w : Nat) : Option CommandWord :=
  if w % 2 ^ nbits < 2 ^ 16 then some (BitVec.ofNat 16 (w % 2 ^ nbits)) else none

/-- The command the decoder reads from the bits `w`, numbered as spec/opcode_table.json numbers them. -/
def decodeTableWord (nbits w : Nat) : Option Instr :=
  match tableWord nbits w with
  | none => none
  | some cw =>
    match decode cw with
    | .ok i => some i
    | .error _ => none

end Sys2Proof
end

