-- ==== Sys2Proof/Machine/State.lean ====
section
/-! DEFINITION. The state of the engine as plain data (10_state.md R21, R22, R26), its value after reset (R32), and the
reasons a step can stop. -/

namespace Sys2Proof.Machine

/-- One operand buffer (R22). `LEN` is stored in 5 bits; that it holds 0 to 24 is an invariant every step keeps
(20_memory.md R54; assumption log 5). -/
structure Buffer where
  /-- `bn.LEN`. -/
  len : BitVec 5
  /-- `bn.DATA[0]` to `bn.DATA[23]`. -/
  data : Vector Byte 24
deriving DecidableEq, Repr

/-- The whole machine. `bufs` and `status` are the spec's state; `rejectedKeys` is its configuration and `pending` and
`returned` are the host's side of the port. -/
structure State where
  /-- The operand buffers `b0` to `b7` (R21). -/
  bufs : Vector Buffer 8
  /-- `STATUS` (R26): `ERR` in bits 2:0. -/
  status : Byte
  /-- The parameter `RejectKey` (00_scope.md R6, 41_block_cipher.md R114) as data: the 24-byte strings it is true of.
  No action changes it (R20; assumption log 3). -/
  rejectedKeys : List Bytes
  /-- What the host will do, in the order it does it (R30, 20_memory.md R59; assumption log 1). -/
  pending : List HostAction
  /-- One entry for each transaction performed, oldest first: the byte it returned to the host, if it returned one
  (R30; assumption log 2). -/
  returned : List (Option Byte)
deriving DecidableEq, Repr

/-- The six kinds of command error (60_exceptions.md R186). A command error is an outcome of the step, not a reason to
stop (R193). -/
inductive ErrorKind where
  | invalidKeyLength
  | invalidBlockLength
  | lengthMismatch
  | cipherInitError
  | invalidKsnLength
  | illegalCommand
deriving DecidableEq, Repr

/-- The reasons a step ends the run: none: "no error halts the engine" (R192), a host read or write never raises an
error (R185), and every command completes (70_reset_and_hazards.md R228). Nobody raises one. -/
inductive Fault where
deriving DecidableEq, Repr

/-- The reasons the model gives an instruction no meaning. Every instruction has one, so no arm of `exec` answers
with it. -/
inductive Refusal where
  /-- Raised by an arm of `exec` whose instruction is not modelled yet; there is none. Safe: the run stops. -/
  | notModelled (mnemonic : String)
deriving DecidableEq, Repr

/-- A buffer after reset: `LEN` 0 and 24 zero bytes (R32). -/
def Buffer.reset : Buffer :=
  { len := 0, data := Vector.replicate 24 0 }

/-- The machine right after reset (R32): every buffer empty, `STATUS` zero. `RejectKey` has its default, which rejects
nothing (R114), and the host has done nothing yet. -/
def State.reset : State :=
  { bufs := Vector.replicate 8 Buffer.reset
    status := 0
    rejectedKeys := []
    pending := []
    returned := [] }

end Sys2Proof.Machine
end

