-- ==== Sys2Proof/Machine/ByteStrings.lean ====
section
/-! DEFINITION. The byte-string operations of the spec's notation (00_scope.md R7, R8) and the byte order in which
eight bytes are a 64-bit DES quantity (20_memory.md R55, 40_des_algorithm.md R91). -/

namespace Sys2Proof.Machine

/-- `byte(s, i)` (R7). It is only ever used with `i < len(s)`. -/
def byteAt (s : Bytes) (i : Nat) : Byte := s.getD i 0

/-- `slice(s, a, b)`: bytes `a` to `b - 1` of `s` (R7). -/
def slice (s : Bytes) (a b : Nat) : Bytes := (s.drop a).take (b - a)

/-- `set(s, i, v)`: `s` with byte `i` replaced (R7). -/
def setByte (s : Bytes) (i : Nat) (v : Byte) : Bytes := s.set i v

/-- Byte-wise AND of two byte strings, for the mask parameters of R6. -/
def maskBytes (s m : Bytes) : Bytes := List.zipWith (· &&& ·) s m

/-- `require C else raise E` (R8). -/
def require (c : Bool) (e : ErrorKind) : Except ErrorKind Unit :=
  if c then .ok () else .error e

/-- An 8-byte string as a 64-bit number, byte 0 the most significant, so that DES bit 1 is bit 7 of byte 0 (R91). -/
def toBlock (s : Bytes) : BitVec 64 :=
  BitVec.ofNat 64 ((List.range 8).foldl (fun acc i => 256 * acc + (byteAt s i).toNat) 0)

/-- The 8-byte string of a 64-bit number, byte 0 the most significant (R91). -/
def ofBlock (x : BitVec 64) : Bytes :=
  (List.range 8).map fun i => BitVec.ofNat 8 (x.toNat >>> (56 - 8 * i))

end Sys2Proof.Machine
end

