-- ==== Sys2Proof/Machine/Des.lean ====
section
/-! DEFINITION. Single DES (40_des_algorithm.md R90 to R102): the tables, the key schedule and the two ciphers. The
spec supplies all of it from general knowledge and says so (93_implementation_defined.md G1; assumption log 9). -/

namespace Sys2Proof.Machine

/-- Bit `k` of an `n`-bit quantity, bit 1 the leftmost and most significant (R91). -/
def desBit {n : Nat} (x : BitVec n) (k : Nat) : Nat := (x.toNat >>> (n - k)) % 2

/-- Applying a table of `m` entries (R92): `Y[i] = X[T[i]]` for `i = 1..m`, the first entry giving the leftmost
bit. -/
def applyTable {n : Nat} (m : Nat) (table : List Nat) (x : BitVec n) : BitVec m :=
  BitVec.ofNat m (table.foldl (fun acc k => 2 * acc + desBit x k) 0)

/-- Initial permutation `IP` (R93). -/
def tableIP : List Nat :=
  [58, 50, 42, 34, 26, 18, 10, 2,
   60, 52, 44, 36, 28, 20, 12, 4,
   62, 54, 46, 38, 30, 22, 14, 6,
   64, 56, 48, 40, 32, 24, 16, 8,
   57, 49, 41, 33, 25, 17, 9, 1,
   59, 51, 43, 35, 27, 19, 11, 3,
   61, 53, 45, 37, 29, 21, 13, 5,
   63, 55, 47, 39, 31, 23, 15, 7]

/-- Final permutation `FP` (R94), the inverse of `IP`. -/
def tableFP : List Nat :=
  [40, 8, 48, 16, 56, 24, 64, 32,
   39, 7, 47, 15, 55, 23, 63, 31,
   38, 6, 46, 14, 54, 22, 62, 30,
   37, 5, 45, 13, 53, 21, 61, 29,
   36, 4, 44, 12, 52, 20, 60, 28,
   35, 3, 43, 11, 51, 19, 59, 27,
   34, 2, 42, 10, 50, 18, 58, 26,
   33, 1, 41, 9, 49, 17, 57, 25]

/-- Expansion `E` (R95). -/
def tableE : List Nat :=
  [32, 1, 2, 3, 4, 5,
   4, 5, 6, 7, 8, 9,
   8, 9, 10, 11, 12, 13,
   12, 13, 14, 15, 16, 17,
   16, 17, 18, 19, 20, 21,
   20, 21, 22, 23, 24, 25,
   24, 25, 26, 27, 28, 29,
   28, 29, 30, 31, 32, 1]

/-- Permutation `P` (R96). -/
def tableP : List Nat :=
  [16, 7, 20, 21, 29, 12, 28, 17,
   1, 15, 23, 26, 5, 18, 31, 10,
   2, 8, 24, 14, 32, 27, 3, 9,
   19, 13, 30, 6, 22, 11, 4, 25]

/-- Permuted choice 1 (R98). Bit 0 of every key byte does not appear. -/
def tablePC1 : List Nat :=
  [57, 49, 41, 33, 25, 17, 9,
   1, 58, 50, 42, 34, 26, 18,
   10, 2, 59, 51, 43, 35, 27,
   19, 11, 3, 60, 52, 44, 36,
   63, 55, 47, 39, 31, 23, 15,
   7, 62, 54, 46, 38, 30, 22,
   14, 6, 61, 53, 45, 37, 29,
   21, 13, 5, 28, 20, 12, 4]

/-- Permuted choice 2 (R99). -/
def tablePC2 : List Nat :=
  [14, 17, 11, 24, 1, 5,
   3, 28, 15, 6, 21, 10,
   23, 19, 12, 4, 26, 8,
   16, 7, 27, 20, 13, 2,
   41, 52, 31, 37, 47, 55,
   30, 40, 51, 45, 33, 48,
   44, 49, 39, 56, 34, 53,
   46, 42, 50, 36, 29, 32]

/-- Box `S1` (R97), row by row. -/
def sBox1 : List (List Nat) :=
  [[14, 4, 13, 1, 2, 15, 11, 8, 3, 10, 6, 12, 5, 9, 0, 7],
   [0, 15, 7, 4, 14, 2, 13, 1, 10, 6, 12, 11, 9, 5, 3, 8],
   [4, 1, 14, 8, 13, 6, 2, 11, 15, 12, 9, 7, 3, 10, 5, 0],
   [15, 12, 8, 2, 4, 9, 1, 7, 5, 11, 3, 14, 10, 0, 6, 13]]

/-- Box `S2` (R97), row by row. -/
def sBox2 : List (List Nat) :=
  [[15, 1, 8, 14, 6, 11, 3, 4, 9, 7, 2, 13, 12, 0, 5, 10],
   [3, 13, 4, 7, 15, 2, 8, 14, 12, 0, 1, 10, 6, 9, 11, 5],
   [0, 14, 7, 11, 10, 4, 13, 1, 5, 8, 12, 6, 9, 3, 2, 15],
   [13, 8, 10, 1, 3, 15, 4, 2, 11, 6, 7, 12, 0, 5, 14, 9]]

/-- Box `S3` (R97), row by row. -/
def sBox3 : List (List Nat) :=
  [[10, 0, 9, 14, 6, 3, 15, 5, 1, 13, 12, 7, 11, 4, 2, 8],
   [13, 7, 0, 9, 3, 4, 6, 10, 2, 8, 5, 14, 12, 11, 15, 1],
   [13, 6, 4, 9, 8, 15, 3, 0, 11, 1, 2, 12, 5, 10, 14, 7],
   [1, 10, 13, 0, 6, 9, 8, 7, 4, 15, 14, 3, 11, 5, 2, 12]]

/-- Box `S4` (R97), row by row. -/
def sBox4 : List (List Nat) :=
  [[7, 13, 14, 3, 0, 6, 9, 10, 1, 2, 8, 5, 11, 12, 4, 15],
   [13, 8, 11, 5, 6, 15, 0, 3, 4, 7, 2, 12, 1, 10, 14, 9],
   [10, 6, 9, 0, 12, 11, 7, 13, 15, 1, 3, 14, 5, 2, 8, 4],
   [3, 15, 0, 6, 10, 1, 13, 8, 9, 4, 5, 11, 12, 7, 2, 14]]

/-- Box `S5` (R97), row by row. -/
def sBox5 : List (List Nat) :=
  [[2, 12, 4, 1, 7, 10, 11, 6, 8, 5, 3, 15, 13, 0, 14, 9],
   [14, 11, 2, 12, 4, 7, 13, 1, 5, 0, 15, 10, 3, 9, 8, 6],
   [4, 2, 1, 11, 10, 13, 7, 8, 15, 9, 12, 5, 6, 3, 0, 14],
   [11, 8, 12, 7, 1, 14, 2, 13, 6, 15, 0, 9, 10, 4, 5, 3]]

/-- Box `S6` (R97), row by row. -/
def sBox6 : List (List Nat) :=
  [[12, 1, 10, 15, 9, 2, 6, 8, 0, 13, 3, 4, 14, 7, 5, 11],
   [10, 15, 4, 2, 7, 12, 9, 5, 6, 1, 13, 14, 0, 11, 3, 8],
   [9, 14, 15, 5, 2, 8, 12, 3, 7, 0, 4, 10, 1, 13, 11, 6],
   [4, 3, 2, 12, 9, 5, 15, 10, 11, 14, 1, 7, 6, 0, 8, 13]]

/-- Box `S7` (R97), row by row. -/
def sBox7 : List (List Nat) :=
  [[4, 11, 2, 14, 15, 0, 8, 13, 3, 12, 9, 7, 5, 10, 6, 1],
   [13, 0, 11, 7, 4, 9, 1, 10, 14, 3, 5, 12, 2, 15, 8, 6],
   [1, 4, 11, 13, 12, 3, 7, 14, 10, 15, 6, 8, 0, 5, 9, 2],
   [6, 11, 13, 8, 1, 4, 10, 7, 9, 5, 0, 15, 14, 2, 3, 12]]

/-- Box `S8` (R97), row by row. -/
def sBox8 : List (List Nat) :=
  [[13, 2, 8, 4, 6, 15, 11, 1, 10, 9, 3, 14, 5, 0, 12, 7],
   [1, 15, 13, 8, 10, 3, 7, 4, 12, 5, 6, 11, 0, 14, 9, 2],
   [7, 11, 4, 1, 9, 12, 14, 2, 0, 6, 10, 13, 15, 3, 5, 8],
   [2, 1, 14, 7, 4, 10, 8, 13, 15, 12, 9, 0, 3, 5, 6, 11]]

/-- The number at the row and column of a 6-bit group `g1 g2 g3 g4 g5 g6`: `row = 2*g1 + g6`,
`col = 8*g2 + 4*g3 + 2*g4 + g5` (R97). -/
def boxOutput (box : List (List Nat)) (group : Nat) : Nat :=
  (box.getD (2 * (group / 32) + group % 2) []).getD (group / 2 % 16) 0

/-- The eight boxes in order, each with the number of bits to the right of its 6-bit group: group `j` is bits
`6j - 5` to `6j` of the 48 (R97). -/
def sBoxes : List (List (List Nat) × Nat) :=
  [(sBox1, 42), (sBox2, 36), (sBox3, 30), (sBox4, 24), (sBox5, 18), (sBox6, 12), (sBox7, 6), (sBox8, 0)]

/-- The eight-box substitution `S` (R97): the eight 4-bit outputs, `S1` first, form the 32-bit result. -/
def substitute (x : BitVec 48) : BitVec 32 :=
  BitVec.ofNat 32 (sBoxes.foldl (fun acc b => 16 * acc + boxOutput b.1 (x.toNat >>> b.2 % 64)) 0)

/-- The shifts `s_1` to `s_16` (R99). -/
def keyShifts : List Nat := [1, 1, 2, 2, 2, 2, 2, 2, 1, 2, 2, 2, 2, 2, 2, 1]

/-- The round keys from the halves `C` and `D` on, one for each shift left (R99). -/
def roundKeysFrom : List Nat → BitVec 28 → BitVec 28 → List (BitVec 48)
  | [], _, _ => []
  | s :: rest, c, d =>
    applyTable 48 tablePC2 (c.rotateLeft s ++ d.rotateLeft s) ::
      roundKeysFrom rest (c.rotateLeft s) (d.rotateLeft s)

/-- The sixteen round keys `K_1` to `K_16` of a 64-bit key (R98, R99). -/
def roundKeys (k : BitVec 64) : List (BitVec 48) :=
  let cd : BitVec 56 := applyTable 56 tablePC1 k
  roundKeysFrom keyShifts (cd.extractLsb' 28 28) (cd.extractLsb' 0 28)

/-- The round function `f(R, K) = P(S(E(R) xor K))` (R100). -/
def feistelF (r : BitVec 32) (k : BitVec 48) : BitVec 32 :=
  applyTable 32 tableP (substitute (applyTable 48 tableE r ^^^ k))

/-- The rounds of R101 on the halves `(L, R)`: `L_i = R_{i-1}`, `R_i = L_{i-1} xor f(R_{i-1}, K_i)`. -/
def feistelRounds : List (BitVec 48) → BitVec 32 × BitVec 32 → BitVec 32 × BitVec 32
  | [], lr => lr
  | k :: rest, lr => feistelRounds rest (lr.2, lr.1 ^^^ feistelF lr.2 k)

/-- The first 32 bits of a 64-bit quantity (R101). -/
def leftHalf (x : BitVec 64) : BitVec 32 := BitVec.ofNat 32 (x.toNat >>> 32)

/-- The last 32 bits of a 64-bit quantity (R101). -/
def rightHalf (x : BitVec 64) : BitVec 32 := BitVec.ofNat 32 x.toNat

/-- The 64-bit quantity `l ‖ r` (R101). -/
def joinHalves (l r : BitVec 32) : BitVec 64 := BitVec.ofNat 64 (l.toNat * 2 ^ 32 + r.toNat)

/-- `IP`, the rounds under the given round keys, and `FP` of the exchanged halves (R101). -/
def desBlock (keys : List (BitVec 48)) (b : BitVec 64) : BitVec 64 :=
  let ip := applyTable 64 tableIP b
  let lr := feistelRounds keys (leftHalf ip, rightHalf ip)
  applyTable 64 tableFP (joinHalves lr.2 lr.1)

/-- `DES_E(K, B)` (R101). -/
def desE (k b : Bytes) : Bytes := ofBlock (desBlock (roundKeys (toBlock k)) (toBlock b))

/-- `DES_D(K, B)`: the same with the round keys in the opposite order (R102). -/
def desD (k b : Bytes) : Bytes := ofBlock (desBlock (roundKeys (toBlock k)).reverse (toBlock b))

end Sys2Proof.Machine
end

