-- ==== Sys2Proof/Machine/Flags.lean ====
section
/-! DEFINITION. The one flag of the engine: the error code in `STATUS.ERR` (10_state.md R26, 60_exceptions.md R186). -/

namespace Sys2Proof.Machine

/-- The code of an error kind (R186). Code 7 is never produced. -/
def ErrorKind.code : ErrorKind → BitVec 3
  | .invalidKeyLength => 1
  | .invalidBlockLength => 2
  | .lengthMismatch => 3
  | .cipherInitError => 4
  | .invalidKsnLength => 5
  | .illegalCommand => 6

/-- The code `OK` of a command that completed (R186). -/
def codeOk : BitVec 3 := 0

/-- `STATUS.ERR`, bits 2:0 (R26). -/
def State.err (s : State) : BitVec 3 := s.status.extractLsb' 0 3

/-- What reading `STATUS` gives: `ERR` in bits 2:0, and bits 7:3 "always read as 0" (R26). -/
def State.statusValue (s : State) : Byte := s.err.setWidth 8

/-- `STATUS.ERR <- c` with `STATUS[7:3]` 0 (R190 (b), R191). -/
def State.setErr (s : State) (c : BitVec 3) : State := { s with status := c.setWidth 8 }

end Sys2Proof.Machine
end

