-- ==== Sys2Proof/Machine/Operands.lean ====
section
/-! DEFINITION. The one operand form of the engine (30_encoding.md R72): a whole operand buffer named by its number,
whose value is the first `LEN` bytes of its `DATA` (10_state.md R22). -/

namespace Sys2Proof.Machine

/-- The value of a buffer: the byte string of length `LEN` whose byte `i` is `DATA[i]` (R22). -/
def Buffer.value (b : Buffer) : Bytes := b.data.toList.take b.len.toNat

/-- Operand buffer `n`. -/
def State.buf (s : State) (n : BufIx) : Buffer := s.bufs[n]

/-- `b[n]`, the operand value of buffer `n` (00_scope.md R8). -/
def State.value (s : State) (n : BufIx) : Bytes := (s.buf n).value

/-- The parameter `RejectKey` of the block cipher, a function from 24-byte strings to booleans (41_block_cipher.md
R114), as the state carries it. -/
def State.rejectKey (s : State) (k : Bytes) : Bool := s.rejectedKeys.contains k

end Sys2Proof.Machine
end

