-- ==== Sys2Proof/Machine/Ops.lean ====
section
/-! DEFINITION. The named operations over the state: the operand space (20_memory.md R51 to R54), the buffer write of a
completing command (10_state.md R24), the delivery of a command error, which is this engine's exception entry
(60_exceptions.md R190), successful completion (R191), and reset (70_reset_and_hazards.md R220). -/

namespace Sys2Proof.Machine

/-! ### The operand space -/

/-- What an address of the operand space names (R51). -/
inductive Location where
  /-- `bn.DATA[j]`. -/
  | data (n : BufIx) (j : Fin 24)
  /-- `bn.LEN`. -/
  | len (n : BufIx)
  /-- `STATUS`. -/
  | status
  /-- A reserved address. -/
  | reserved
deriving DecidableEq, Repr

/-- The address map (R51): buffer `bn` has the 32-byte window at `n * 0x20`, `DATA[j]` at offset `j <= 0x17` and `LEN`
at `0x18`; `STATUS` is at `0x100`. -/
def locate (addr : PortAddr) : Location :=
  if hn : addr.toNat / 32 < 8 then
    if hj : addr.toNat % 32 < 24 then .data ⟨addr.toNat / 32, hn⟩ ⟨addr.toNat % 32, hj⟩
    else if addr.toNat % 32 = 24 then .len ⟨addr.toNat / 32, hn⟩
    else .reserved
  else if addr.toNat = 0x100 then .status
  else .reserved

/-- The address at an offset of buffer `bn`'s window: `n * 0x20 + offset` (R51). -/
def windowAddr (n : BufIx) (offset : Nat) : PortAddr := BitVec.ofNat 9 (n.val * 32 + offset)

/-- The address of `bn.DATA[j]` (R51). -/
def dataAddr (n : BufIx) (j : Nat) : PortAddr := windowAddr n j

/-- The address of `bn.LEN` (R51). -/
def lenAddr (n : BufIx) : PortAddr := windowAddr n 0x18

/-- The address of `STATUS` (R51). -/
def statusAddr : PortAddr := 0x100

/-- `MemRead(addr, 1)` (R52). It returns a byte and no state: "a read changes no state, at any address". -/
def memRead (addr : PortAddr) (s : State) : Byte :=
  match locate addr with
  | .data n j => (s.buf n).data[j]
  | .len n => (s.buf n).len.setWidth 8
  | .status => s.statusValue
  | .reserved => 0

/-- Buffer `n` replaced. -/
def State.setBuf (s : State) (n : BufIx) (b : Buffer) : State :=
  { s with bufs := s.bufs.set n.val b n.isLt }

/-- `bn.DATA[j] <- v` and nothing else (R53). -/
def State.setData (s : State) (n : BufIx) (j : Fin 24) (v : Byte) : State :=
  s.setBuf n { s.buf n with data := (s.buf n).data.set j.val v j.isLt }

/-- A write of `v` to a `LEN` address: taken when `v <= 24`, ignored otherwise (R54). -/
def State.setLen (s : State) (n : BufIx) (v : Byte) : State :=
  if v.toNat ≤ 24 then s.setBuf n { s.buf n with len := v.setWidth 5 } else s

/-- `MemWrite(addr, 1, v)` (R53): `STATUS` and the reserved addresses ignore it. -/
def memWrite (addr : PortAddr) (v : Byte) (s : State) : State :=
  match locate addr with
  | .data n j => s.setData n j v
  | .len n => s.setLen n v
  | .status => s
  | .reserved => s

/-! ### What a command leaves -/

/-- A buffer that holds the byte string `v`: `LEN` its length, `DATA` its bytes and then zeros (R24). -/
def Buffer.ofValue (v : Bytes) : Buffer :=
  { len := BitVec.ofNat 5 v.length, data := Vector.ofFn fun j => byteAt v j.val }

/-- `b[rd] <- v` (R24). -/
def State.writeBuffer (s : State) (rd : BufIx) (v : Bytes) : State := s.setBuf rd (Buffer.ofValue v)

/-- The end of a transaction: what it returns to the host is recorded (10_state.md R30; assumption log 2). -/
def State.answer (s : State) (r : Option Byte) : State := { s with returned := s.returned ++ [r] }

/-- The end of an `H-ISSUE`: it "returns the new value of `STATUS` as the response" (R30). -/
def State.respond (s : State) : State := s.answer (some s.statusValue)

/-- Error delivery, the engine's exception entry (R190): no buffer is written, `STATUS.ERR` takes the code and the code
is the response. Nothing is saved and control goes nowhere, so there is no return from it and nothing to restore
(R192): the next transaction is performed as if the failed command had never been issued. -/
def raiseError (e : ErrorKind) (s : State) : State := (s.setErr e.code).respond

/-- Successful completion (R191): `b[rd]` is written, `STATUS.ERR` is 0 and so is the response. -/
def complete (rd : BufIx) (v : Bytes) (s : State) : State := ((s.writeBuffer rd v).setErr codeOk).respond

/-- How every command ends: with its result in `b[rd]`, or with its error (R23, R190, R191). The result has been
computed from the source values of `s` before `b[rd]` is written (R24). -/
def finish (rd : BufIx) (r : Except ErrorKind Bytes) (s : State) : Host.Outcome State Fault Refusal :=
  match r with
  | .ok v => .next (complete rd v s)
  | .error e => .next (raiseError e s)

/-! ### Reset -/

/-- Reset: every piece of the spec's state takes its reset value (R220). The configuration and the host's side of the
port are not the engine's state and stay (assumption log 4). -/
def resetEngine (s : State) : State :=
  { s with bufs := State.reset.bufs, status := State.reset.status }

end Sys2Proof.Machine
end

