-- ==== Sys2Proof/Machine/BlockCipher.lean ====
section
/-! DEFINITION. The Block Cipher Primitive (41_block_cipher.md): key expansion, Triple-DES, the commands `KEXP`, `TENC`
and `TDEC`, and the Transaction Codec's two functions, which are equal to the primitive's (45_transaction_codec.md
R175). -/

namespace Sys2Proof.Machine

/-- `expandKey(k)` (R110): 16 bytes become `K1 ‖ K2 ‖ K1`, 24 bytes stay, every other length is an error. -/
def expandKey (k : Bytes) : Except ErrorKind Bytes :=
  if k.length = Config.key2Bytes then .ok (k ++ slice k 0 8)
  else if k.length = Config.key3Bytes then .ok k
  else .error .invalidKeyLength

/-- `TDES_E(k, B)`: encrypt, decrypt, encrypt (R111). -/
def tdesE (k b : Bytes) : Bytes := desE (slice k 16 24) (desD (slice k 8 16) (desE (slice k 0 8) b))

/-- `TDES_D(k, B)`: the inverse (R111). -/
def tdesD (k b : Bytes) : Bytes := desD (slice k 0 8) (desE (slice k 8 16) (desD (slice k 16 24) b))

/-- `encryptBlock(key, block)` with its checks in the order of R113. `reject` is `RejectKey`, applied to the expanded
key (R114). -/
def encryptBlock (reject : Bytes → Bool) (key block : Bytes) : Except ErrorKind Bytes := do
  let k ← expandKey key
  require (block.length == Config.blockBytes) .invalidBlockLength
  require (!reject k) .cipherInitError
  return tdesE k block

/-- `decryptBlock(key, block)` with its checks in the order of R113. -/
def decryptBlock (reject : Bytes → Bool) (key block : Bytes) : Except ErrorKind Bytes := do
  let k ← expandKey key
  require (block.length == Config.blockBytes) .invalidBlockLength
  require (!reject k) .cipherInitError
  return tdesD k block

/-- `encryptData(sessionKey, plaintext) = encryptBlock(sessionKey, plaintext)` (R175). -/
def encryptData (reject : Bytes → Bool) (sessionKey plaintext : Bytes) : Except ErrorKind Bytes :=
  encryptBlock reject sessionKey plaintext

/-- `decryptData(sessionKey, ciphertext) = decryptBlock(sessionKey, ciphertext)` (R175). -/
def decryptData (reject : Bytes → Bool) (sessionKey ciphertext : Bytes) : Except ErrorKind Bytes :=
  decryptBlock reject sessionKey ciphertext

/-- `KEXP bd, bs1`: `b[rd] <- expandKey(b[rs1])` (R112). -/
def execKexp (rd rs1 : BufIx) (s : State) : Host.Outcome State Fault Refusal :=
  finish rd (expandKey (s.value rs1)) s

/-- `TENC bd, bs1, bs2`: `b[rd] <- encryptBlock(b[rs1], b[rs2])` (R115). -/
def execTenc (rd rs1 rs2 : BufIx) (s : State) : Host.Outcome State Fault Refusal :=
  finish rd (encryptBlock s.rejectKey (s.value rs1) (s.value rs2)) s

/-- `TDEC bd, bs1, bs2`: `b[rd] <- decryptBlock(b[rs1], b[rs2])` (R116). -/
def execTdec (rd rs1 rs2 : BufIx) (s : State) : Host.Outcome State Fault Refusal :=
  finish rd (decryptBlock s.rejectKey (s.value rs1) (s.value rs2)) s

end Sys2Proof.Machine
end

