-- ==== Sys2Proof/Machine/ByteUtilities.lean ====
section
/-! DEFINITION. The Byte Utilities (42_byte_utilities.md): element-wise XOR, the two KSN maskings and the KSN window,
and the commands `XOR`, `MSKI` and `MSKR`. -/

namespace Sys2Proof.Machine

/-- The element-wise XOR of two equally long byte strings (R130). -/
def xorPadded (a b : Bytes) : Bytes := List.zipWith (· ^^^ ·) a b

/-- `xor(a, b)` (R130). -/
def xorBytes (a b : Bytes) : Except ErrorKind Bytes := do
  require (a.length == b.length) .lengthMismatch
  return xorPadded a b

/-- `maskKsnForIpek(ksn)` (R132): the first 8 bytes, with the low 5 bits of byte 7 cleared. -/
def maskKsnForIpek (ksn : Bytes) : Except ErrorKind Bytes := do
  require (decide (8 ≤ ksn.length)) .invalidKsnLength
  let m := slice ksn 0 8
  return setByte m 7 (byteAt m 7 &&& Config.ipekKsnByte7And)

/-- `selectKsn8(ksn)` (R133): the last 8 bytes of a 10-byte KSN, or an 8-byte KSN itself. -/
def selectKsn8 (ksn : Bytes) : Except ErrorKind Bytes :=
  if ksn.length = Config.ksnBytes then .ok (slice ksn 2 10)
  else if ksn.length = Config.ksn8Bytes then .ok ksn
  else .error .invalidKsnLength

/-- `maskKsnForRound(ksn)` (R134), as "the KSN8 ANDed byte by byte with" `ROUND_KSN_AND`. That this is the rule's own
sequence of three byte changes is `maskKsnForRound_steps` in Sys2Proof/Laws/ByteUtilities.lean. -/
def maskKsnForRound (ksn : Bytes) : Except ErrorKind Bytes := do
  let m ← selectKsn8 ksn
  return maskBytes m Config.roundKsnAnd

/-- `XOR bd, bs1, bs2`: `b[rd] <- xor(b[rs1], b[rs2])` (R131). -/
def execXor (rd rs1 rs2 : BufIx) (s : State) : Host.Outcome State Fault Refusal :=
  finish rd (xorBytes (s.value rs1) (s.value rs2)) s

/-- `MSKI bd, bs1`: `b[rd] <- maskKsnForIpek(b[rs1])` (R135). -/
def execMski (rd rs1 : BufIx) (s : State) : Host.Outcome State Fault Refusal :=
  finish rd (maskKsnForIpek (s.value rs1)) s

/-- `MSKR bd, bs1`: `b[rd] <- maskKsnForRound(b[rs1])` (R136). -/
def execMskr (rd rs1 : BufIx) (s : State) : Host.Outcome State Fault Refusal :=
  finish rd (maskKsnForRound (s.value rs1)) s

end Sys2Proof.Machine
end

