-- ==== Sys2Proof/Machine/KeyDerivation.lean ====
section
/-! DEFINITION. The IPEK Deriver (43_ipek.md) and the Session Key Deriver (44_session_key.md): the fold, the transaction
counter, one session-key round, the chain, and the commands `IPEK`, `SKR` and `DTK`. -/

namespace Sys2Proof.Machine

/-- `fold(key, block, V)` (R146): one encryption of the block under the key and one under its variant key, the first
attempted first. -/
def foldKey (reject : Bytes → Bool) (key block v : Bytes) : Except ErrorKind Bytes := do
  let left := slice key 0 8
  let right := slice key 8 16
  let a ← encryptBlock reject (left ++ right) block
  let maskedLeft ← xorBytes left v
  let maskedRight ← xorBytes right v
  let b ← encryptBlock reject (maskedLeft ++ maskedRight) block
  return a ++ b

/-- `generateIPEK(bdk, ksn)` (R145), its steps 2 to 6 being the fold (R146). -/
def generateIpek (reject : Bytes → Bool) (bdk ksn : Bytes) : Except ErrorKind Bytes := do
  require (bdk.length == Config.derivKeyBytes) .invalidKeyLength
  let ksnMasked ← maskKsnForIpek ksn
  foldKey reject bdk ksnMasked Config.ipekKeyVariant

/-- `generateSessionKey(key, ksn)`, one round (R157), its steps 1 and 3 to 6 being the fold (R146). -/
def generateSessionKey (reject : Bytes → Bool) (key ksn : Bytes) : Except ErrorKind Bytes := do
  require (key.length == Config.derivKeyBytes) .invalidKeyLength
  let ksnMasked ← maskKsnForRound ksn
  foldKey reject key ksnMasked Config.roundKeyVariant

/-- `counter(k)` of a KSN8 (R156): `(byte(k,5) & 0x1F) << 16 | byte(k,6) << 8 | byte(k,7)`. -/
def counter (k : Bytes) : BitVec 21 :=
  ((byteAt k 5 &&& Config.counterByte5And).setWidth 21 <<< 16) ||| ((byteAt k 6).setWidth 21 <<< 8) |||
    (byteAt k 7).setWidth 21

/-- The working KSN before the loop (R159 step 1): the KSN8 with all 21 counter bits cleared. -/
def clearCounter (k : Bytes) : Bytes :=
  setByte (setByte (setByte k 5 (byteAt k 5 &&& 0xE0)) 6 0x00) 7 0x00

/-- `set(work, i, byte(work, i) | (1 << bit))` (R159 step 2a). -/
def orBit (work : Bytes) (i bit : Nat) : Bytes := setByte work i (byteAt work i ||| (1 <<< bit))

/-- The working KSN with counter bit `shift` set in the byte that holds it (R156, R159 step 2a). -/
def setCounterBit (work : Bytes) (shift : Nat) : Bytes :=
  if shift ≤ 7 then orBit work 7 shift
  else if shift ≤ 15 then orBit work 6 (shift - 8)
  else orBit work 5 (shift - 16)

/-- The loop of R159 step 2 over the given bit positions, from the working KSN and the current key on. -/
def chainRounds (reject : Bytes → Bool) (c : BitVec 21) : List Nat → Bytes → Bytes → Except ErrorKind Bytes
  | [], _, cur => .ok cur
  | shift :: rest, work, cur =>
    if c.getLsbD shift then do
      let work' := setCounterBit work shift
      let cur' ← generateSessionKey reject cur work'
      chainRounds reject c rest work' cur'
    else chainRounds reject c rest work cur

/-- `deriveTransactionKey(ipek, ksn)` (R159): `shift` runs from 0 to 20 in this order, and the final round uses the
original `ksn`. -/
def deriveTransactionKey (reject : Bytes → Bool) (ipek ksn : Bytes) : Except ErrorKind Bytes := do
  require (ipek.length == Config.derivKeyBytes) .invalidKeyLength
  let k8 ← selectKsn8 ksn
  let cur ← chainRounds reject (counter k8) (List.range Config.counterBits) (clearCounter k8) ipek
  generateSessionKey reject cur ksn

/-- `IPEK bd, bs1, bs2`: `b[rd] <- generateIPEK(b[rs1], b[rs2])` (R147). -/
def execIpek (rd rs1 rs2 : BufIx) (s : State) : Host.Outcome State Fault Refusal :=
  finish rd (generateIpek s.rejectKey (s.value rs1) (s.value rs2)) s

/-- `SKR bd, bs1, bs2`: `b[rd] <- generateSessionKey(b[rs1], b[rs2])` (R158). -/
def execSkr (rd rs1 rs2 : BufIx) (s : State) : Host.Outcome State Fault Refusal :=
  finish rd (generateSessionKey s.rejectKey (s.value rs1) (s.value rs2)) s

/-- `DTK bd, bs1, bs2`: `b[rd] <- deriveTransactionKey(b[rs1], b[rs2])` (R160). -/
def execDtk (rd rs1 rs2 : BufIx) (s : State) : Host.Outcome State Fault Refusal :=
  finish rd (deriveTransactionKey s.rejectKey (s.value rs1) (s.value rs2)) s

end Sys2Proof.Machine
end

