-- ==== Sys2Proof/Machine/Dispatch.lean ====
section
/-! DEFINITION. Every command of the engine and its meaning, one arm each. -/

namespace Sys2Proof.Machine

def exec (i : Instr) (s : State) : Host.Outcome State Fault Refusal :=
  match i with
  | .kexp rd rs1 => Sys2Proof.Machine.execKexp rd rs1 s
  | .tenc rd rs1 rs2 => Sys2Proof.Machine.execTenc rd rs1 rs2 s
  | .tdec rd rs1 rs2 => Sys2Proof.Machine.execTdec rd rs1 rs2 s
  | .xor rd rs1 rs2 => Sys2Proof.Machine.execXor rd rs1 rs2 s
  | .mski rd rs1 => Sys2Proof.Machine.execMski rd rs1 s
  | .mskr rd rs1 => Sys2Proof.Machine.execMskr rd rs1 s
  | .ipek rd rs1 rs2 => Sys2Proof.Machine.execIpek rd rs1 rs2 s
  | .skr rd rs1 rs2 => Sys2Proof.Machine.execSkr rd rs1 rs2 s
  | .dtk rd rs1 rs2 => Sys2Proof.Machine.execDtk rd rs1 rs2 s

end Sys2Proof.Machine
end

