-- ==== Sys2Proof/Machine/Transactions.lean ====
section
/-! DEFINITION. What the engine does for each host action (10_state.md R30, 70_reset_and_hazards.md R220, R221). -/

namespace Sys2Proof.Machine

/-- `H-ISSUE(w)` (R30): an illegal word raises `IllegalCommand` before any operand is read (30_encoding.md R74, R75);
a legal one is executed to completion. -/
def issue (w : CommandWord) (s : State) : Host.Outcome State Fault Refusal :=
  match decode w with
  | .ok i => exec i s
  | .error _ => .next (raiseError .illegalCommand s)

/-- One host action, performed whole. A reset that cuts an `H-ISSUE` short abandons the command: the state is the reset
state and the `H-ISSUE` gets no response (R221). -/
def perform (a : HostAction) (s : State) : Host.Outcome State Fault Refusal :=
  match a with
  | .write addr v => .next ((memWrite addr v s).answer none)
  | .read addr => .next (s.answer (some (memRead addr s)))
  | .issue w => issue w s
  | .reset => .next (resetEngine s)
  | .issueCutByReset _ => .next ((resetEngine s).answer none)

/-- The state once the host has begun its next action: the action is no longer pending. -/
def State.takeAction (s : State) : State := { s with pending := s.pending.tail }

end Sys2Proof.Machine
end

