-- ==== Sys2Proof/Machine/Step.lean ====
section
/-! DEFINITION. One step of the machine: the next action of the host, in the one total order of 20_memory.md R59. There
is no program counter and nothing is fetched from memory (10_state.md R27). -/

namespace Sys2Proof.Machine

/-- One step: the oldest pending action of the host. With none pending "the engine does nothing until the host issues a
command" (70_reset_and_hazards.md R220). -/
def step (s : State) : Host.Outcome State Fault Refusal :=
  match s.pending with
  | [] => .next s
  | a :: _ => perform a s.takeAction

/-- `s` with the command word `w` as the host's very next action, an `H-ISSUE` (R30). A word that does not fit in 16 bits
cannot be issued, and then nothing changes (assumption log 8). -/
def State.withFetchWord (s : State) (nbits w : Nat) : State :=
  match tableWord nbits w with
  | none => s
  | some cw => { s with pending := .issue cw :: s.pending }

end Sys2Proof.Machine
end

