-- ==== Sys2Proof/Machine/Listing.lean ====
section
/-! DEFINITION. The assembler's view of the engine (30_encoding.md R76 to R78): how a command is written, the two
pseudo-instructions of the Transaction Codec (45_transaction_codec.md R176, R177), and the host directives of program
listings. None of it has an encoding of its own. -/

namespace Sys2Proof.Machine

/-- A buffer's name, `b0` to `b7` (R76). -/
def bufferName (n : BufIx) : String := "b" ++ Nat.repr n.val

/-- The operands as they are written: the destination, then the sources, separated by commas (R76). -/
def operandText (ns : List BufIx) : String := String.intercalate ", " (ns.map bufferName)

/-- A command as it is written: `MNEMONIC bd, bs1, bs2` or `MNEMONIC bd, bs1` (R76). -/
def assemblyText (i : Instr) : String := i.mnemonic ++ " " ++ operandText (i.dest :: i.sources)

/-- `ENCD bd, bk, bp` expands to `TENC bd, bk, bp` (R77, R176). -/
def expandEncd (bd bk bp : BufIx) : Instr := .tenc bd bk bp

/-- `DECD bd, bk, bc` expands to `TDEC bd, bk, bc` (R77, R177). -/
def expandDecd (bd bk bc : BufIx) : Instr := .tdec bd bk bc

/-- The data writes of a `LOAD` from byte `j` on, in ascending order (R78). -/
def loadWrites (n : BufIx) : Nat → Bytes → List HostAction
  | _, [] => []
  | j, v :: rest => .write (dataAddr n j) v :: loadWrites n (j + 1) rest

/-- `LOAD bn, <hex>` (R78): a write of each byte in ascending order, then one of `LEN`. It is a directive only for a
byte string of length at most 24. -/
def loadActions (n : BufIx) (hex : Bytes) : Option (List HostAction) :=
  if hex.length ≤ 24 then some (loadWrites n 0 hex ++ [.write (lenAddr n) (BitVec.ofNat 8 hex.length)]) else none

/-- The first half of `READ bn` (R78): the read that gives the length `L`. -/
def readLengthActions (n : BufIx) : List HostAction := [.read (lenAddr n)]

/-- The second half of `READ bn` (R78): the reads of bytes `0..L-1`, once the host has been given `L`. -/
def readByteActions (n : BufIx) (len : Nat) : List HostAction :=
  (List.range len).map fun j => .read (dataAddr n j)

/-- `STATUS` (R78): `H-READ(0x100)`. -/
def statusActions : List HostAction := [.read statusAddr]

end Sys2Proof.Machine
end

