-- ==== Sys2Proof/Safety.lean ====
section
/-! DEFINITION. What counts as a safe run, and the terms the statements use: the invariant of the reachable states, how a
command completes and how it fails, and the rules' results written out apart from the machine's own functions. -/

namespace Sys2Proof.Machine

/-- A legal state: every `LEN` holds 0 to 24 (20_memory.md R54) and `STATUS` is a code 0 to 6, so that its bits 7:3 are 0
and `ERR` is never 7 (10_state.md R26, 93_implementation_defined.md U10). -/
abbrev State.Inv (s : State) : Prop :=
  (∀ n : BufIx, (s.buf n).len.toNat ≤ 24) ∧ s.status.toNat ≤ 6

/-- A command that started in `s` has completed in `t` with the result `v` in buffer `rd` (10_state.md R24,
60_exceptions.md R191): `LEN` and all 24 `DATA` bytes of `rd`, every other buffer unchanged, `STATUS` 0, the response
`0x00` (recorded in `returned`, assumption log 2), and nothing else. -/
def CompletesWith (s t : State) (rd : BufIx) (v : Bytes) : Prop :=
  (t.buf rd).len.toNat = v.length ∧
  (∀ j : Fin 24, (t.buf rd).data[j] = if j.val < v.length then v.getD j.val 0 else 0) ∧
  (∀ n : BufIx, n ≠ rd → t.buf n = s.buf n) ∧
  t.status = 0 ∧
  t.returned = s.returned ++ [some 0] ∧
  t.pending = s.pending ∧
  t.rejectedKeys = s.rejectedKeys

/-- A command that started in `s` has ended in `t` with the error of this code (60_exceptions.md R190): no buffer
written, the code in `STATUS` and in the response (recorded in `returned`, assumption log 2), and nothing else. -/
def FailsWith (s t : State) (code : Byte) : Prop :=
  t.bufs = s.bufs ∧
  t.status = code ∧
  t.returned = s.returned ++ [some code] ∧
  t.pending = s.pending ∧
  t.rejectedKeys = s.rejectedKeys

/-- From `s`, the command `i` goes to a next state in which it has completed with `v` in its destination. -/
def Completes (i : Instr) (s : State) (v : Bytes) : Prop :=
  ∃ t, exec i s = .next t ∧ CompletesWith s t i.dest v

/-- From `s`, the command `i` goes to a next state in which it has failed with the code. -/
def Fails (i : Instr) (s : State) (code : Byte) : Prop :=
  ∃ t, exec i s = .next t ∧ FailsWith s t code

/-- The state after reset with these values loaded in these buffers. -/
def State.holding (l : List (BufIx × Bytes)) : State :=
  l.foldl (fun s p => s.writeBuffer p.1 p.2) State.reset

/-! ### The rules' results -/

/-- A 16-byte key `K1 ‖ K2` as `K1 ‖ K2 ‖ K1`; any other key as it is (41_block_cipher.md R110). -/
def tripleLength (key : Bytes) : Bytes := if key.length = 16 then key ++ key.take 8 else key

/-- Encrypt with `K1`, decrypt with `K2`, encrypt with `K3` (R111), for a 16- or 24-byte key. -/
def tdeaEncrypt (key block : Bytes) : Bytes :=
  let k := tripleLength key
  desE (k.drop 16) (desD ((k.drop 8).take 8) (desE (k.take 8) block))

/-- Decrypt with `K3`, encrypt with `K2`, decrypt with `K1` (R111), for a 16- or 24-byte key. -/
def tdeaDecrypt (key block : Bytes) : Bytes :=
  let k := tripleLength key
  desD (k.take 8) (desE ((k.drop 8).take 8) (desD (k.drop 16) block))

/-- The key of the second encryption of a fold: both 8-byte halves XORed with the variant (43_ipek.md R145,
44_session_key.md R157). -/
def variantKey (key v : Bytes) : Bytes := List.zipWith (· ^^^ ·) key (v ++ v)

/-- The two encryptions of a fold, concatenated (43_ipek.md R146). -/
def foldResult (key block v : Bytes) : Bytes := tdeaEncrypt key block ++ tdeaEncrypt (variantKey key v) block

/-- Neither expanded key of a fold is rejected (41_block_cipher.md R114). -/
def foldAccepted (s : State) (key v : Bytes) : Prop :=
  s.rejectKey (tripleLength key) = false ∧ s.rejectKey (tripleLength (variantKey key v)) = false

/-- The IPEK mask's result: bytes 0 to 6, and byte 7 with its low 5 bits cleared (42_byte_utilities.md R132). -/
def ipekMasked (ksn : Bytes) : Bytes := ksn.take 7 ++ [ksn.getD 7 0 &&& 0xE0]

/-- The last 8 bytes of a KSN of 8 or 10 bytes (R133). -/
def ksnWindow (ksn : Bytes) : Bytes := ksn.drop (ksn.length - 8)

/-- The round mask's result on a KSN8: bytes 0 to 4, byte 5 with its low 5 bits cleared, and two zero bytes (R134). -/
def roundMasked (k8 : Bytes) : Bytes := k8.take 5 ++ [k8.getD 5 0 &&& 0xE0, 0x00, 0x00]

/-- `C0 C0 C0 C0 00 00 00 00` (43_ipek.md R145 step 4). -/
def ipekVariant : Bytes := [0xC0, 0xC0, 0xC0, 0xC0, 0, 0, 0, 0]

/-- `FF FF FF FF 00 00 00 00` (44_session_key.md R157 step 4). -/
def roundVariant : Bytes := [0xFF, 0xFF, 0xFF, 0xFF, 0, 0, 0, 0]

/-- `F(x) = fold(x, m, FFFFFFFF00000000)` with `m = maskKsnForRound(ksn)` (44_session_key.md R162). -/
def roundResult (ksn key : Bytes) : Bytes := foldResult key (roundMasked (ksnWindow ksn)) roundVariant

/-- `F` applied `n` times. -/
def roundIterate (ksn : Bytes) : Nat → Bytes → Bytes
  | 0, key => key
  | n + 1, key => roundIterate ksn n (roundResult ksn key)

/-- The 21-bit counter of a KSN8 as a number (44_session_key.md R156). -/
def counterNat (k8 : Bytes) : Nat :=
  (k8.getD 5 0).toNat % 32 * 65536 + (k8.getD 6 0).toNat * 256 + (k8.getD 7 0).toNat

/-- The positions of the one bits of a 21-bit counter, in ascending order. -/
def counterOnes (c : Nat) : List Nat := (List.range 21).filter fun n => c.testBit n

/-- A KSN8 with its 21 counter bits replaced by the number `c` (R156). -/
def withCounter (k8 : Bytes) (c : Nat) : Bytes :=
  k8.take 5 ++ [(k8.getD 5 0 &&& 0xE0) ||| BitVec.ofNat 8 (c / 65536), BitVec.ofNat 8 (c / 256), BitVec.ofNat 8 c]

end Sys2Proof.Machine
end

