-- ==== Sys2Proof/Certificates/Slice0/Obligations.lean ====
section
/-! DEFINITION. The statements about the engine, for the provers. A rule of spec/ is cited as R<n>. Where the spec marks a
sentence as its own inference ("[derived: ...]"), the docstring says so. -/

open Sys2Proof Sys2Proof.Machine

/-! ### Words and commands -/

/-- Decoding the word of any command gives the command back. R73 gives the word; that decoding and encoding are inverse
to each other on the legal words is the spec's own inference (30_encoding.md section 3). -/
def Obligations.DecodeOfEncodeIsTheCommand : Prop :=
  ∀ i : Instr, i.wellFormed = true → decode (encode i) = .ok i

/-- The word of the command a word decodes to is that word: "every legal command has exactly one word", the spec's own
inference (30_encoding.md section 3). -/
def Obligations.EncodeOfDecodeIsTheWord : Prop :=
  ∀ (w : CommandWord) (i : Instr), decode w = .ok i → encode i = w

/-- R73: the nine rows, each a word's `mask` and `match` and its fields at the bits of R71, and the word of a command. -/
def Obligations.MaskAndMatchDecideTheCommand : Prop :=
  ∀ (w : CommandWord) (rd rs1 rs2 : BufIx),
    let r2 := rd.val = w.toNat / 512 % 8 ∧ rs1.val = w.toNat / 64 % 8
    let r3 := r2 ∧ rs2.val = w.toNat / 8 % 8
    let word := fun (op : Nat) (second : BufIx) =>
      BitVec.ofNat 16 (op * 4096 + rd.val * 512 + rs1.val * 64 + second.val * 8)
    (decode w = .ok (.kexp rd rs1) ↔ w &&& 0xF03F#16 = 0x1000#16 ∧ r2) ∧
    (decode w = .ok (.tenc rd rs1 rs2) ↔ w &&& 0xF007#16 = 0x2000#16 ∧ r3) ∧
    (decode w = .ok (.tdec rd rs1 rs2) ↔ w &&& 0xF007#16 = 0x3000#16 ∧ r3) ∧
    (decode w = .ok (.xor rd rs1 rs2) ↔ w &&& 0xF007#16 = 0x4000#16 ∧ r3) ∧
    (decode w = .ok (.mski rd rs1) ↔ w &&& 0xF03F#16 = 0x5000#16 ∧ r2) ∧
    (decode w = .ok (.mskr rd rs1) ↔ w &&& 0xF03F#16 = 0x6000#16 ∧ r2) ∧
    (decode w = .ok (.ipek rd rs1 rs2) ↔ w &&& 0xF007#16 = 0x7000#16 ∧ r3) ∧
    (decode w = .ok (.skr rd rs1 rs2) ↔ w &&& 0xF007#16 = 0x8000#16 ∧ r3) ∧
    (decode w = .ok (.dtk rd rs1 rs2) ↔ w &&& 0xF007#16 = 0x9000#16 ∧ r3) ∧
    encode (.kexp rd rs1) = word 1 0 ∧ encode (.tenc rd rs1 rs2) = word 2 rs2 ∧
    encode (.tdec rd rs1 rs2) = word 3 rs2 ∧ encode (.xor rd rs1 rs2) = word 4 rs2 ∧
    encode (.mski rd rs1) = word 5 0 ∧ encode (.mskr rd rs1) = word 6 0 ∧
    encode (.ipek rd rs1 rs2) = word 7 rs2 ∧ encode (.skr rd rs1 rs2) = word 8 rs2 ∧
    encode (.dtk rd rs1 rs2) = word 9 rs2

/-- R74: which words are illegal, and that an illegal word raises `IllegalCommand`: no buffer changes, `STATUS.ERR` is 6
and the response is `0x06`. The count of the legal words, the spec's own inference, is not stated here. -/
def Obligations.IllegalWordRaisesIllegalCommand : Prop :=
  ∀ (w : CommandWord) (s : State),
    let op := w.toNat / 4096
    let illegal := (op = 0 ∨ 10 ≤ op) ∨ w.toNat % 8 ≠ 0 ∨ ((op = 1 ∨ op = 5 ∨ op = 6) ∧ w.toNat / 8 % 8 ≠ 0)
    (illegal ↔ ∀ i, decode w ≠ .ok i) ∧
    (wordWellFormed w = true ↔ ∃ i, decode w = .ok i) ∧
    (illegal → ∃ t, issue w s = .next t ∧ FailsWith s t 6) ∧
    (∃ t, issue 0x0000 s = .next t ∧ FailsWith s t 6) ∧
    (∃ t, issue 0xFFFF s = .next t ∧ FailsWith s t 6)

/-- The words of 95_test_vectors.md section 2.1 and what they decode to. -/
def Obligations.SpecWordsDecode : Prop :=
  decode 0x1440 = .ok (.kexp 2 1) ∧ decode 0x2650 = .ok (.tenc 3 1 2) ∧ decode 0x3650 = .ok (.tdec 3 1 2) ∧
  decode 0x4650 = .ok (.xor 3 1 2) ∧ decode 0x5840 = .ok (.mski 4 1) ∧ decode 0x6A40 = .ok (.mskr 5 1) ∧
  decode 0x7408 = .ok (.ipek 2 0 1) ∧ decode 0x8688 = .ok (.skr 3 2 1) ∧ decode 0x9688 = .ok (.dtk 3 2 1) ∧
  decode 0x1000 = .ok (.kexp 0 0) ∧ decode 0x9FF8 = .ok (.dtk 7 7 7) ∧ decode 0x2000 = .ok (.tenc 0 0 0) ∧
  (∀ w ∈ [0x0000, 0x0FF8, 0xA000, 0xF000, 0xFFFF, 0x2651, 0x2654, 0x1447, 0x1448, 0x5878, 0x6A48],
    ∀ i, decode w ≠ .ok i)

/-- R77: `ENCD` and `DECD` are aliases of `TENC` and `TDEC`, each for exactly one command with the same operands in the
same order, and a disassembler prints `TENC` and `TDEC`. -/
def Obligations.CodecAliasesAreTencAndTdec : Prop :=
  ∀ bd bk bp : BufIx,
    expandEncd bd bk bp = .tenc bd bk bp ∧ expandDecd bd bk bp = .tdec bd bk bp ∧
    (expandEncd bd bk bp).mnemonic = "TENC" ∧ (expandDecd bd bk bp).mnemonic = "TDEC"

/-! ### Steps and host transactions -/

/-- When the host's next action is an `H-ISSUE` of a word that decodes to a well-formed command `i`, the step is `exec` of
`i` in the state whose pending actions are the rest (30_encoding.md section 4, 10_state.md section 5; the list of pending
actions is the model's own form, assumption log 1). -/
def Obligations.StepRunsTheDecodedCommand : Prop :=
  ∀ (s : State) (w : CommandWord) (rest : List HostAction) (i : Instr),
    s.pending = .issue w :: rest → decode w = .ok i → i.wellFormed = true →
      step s = exec i { s with pending := rest }

/-- The other host transactions and the idle engine: a read returns the addressed byte and changes nothing, a write
stores and returns nothing (10_state.md section 5). That a step with no action pending changes nothing is the model's
choice (assumption log 1), resting on "the engine does nothing until the host issues a command"
(70_reset_and_hazards.md section 1). What a transaction returned is recorded by the model's own field `returned`
(assumption log 2). -/
def Obligations.ReadAndWriteTransactionsStep : Prop :=
  ∀ (s : State) (a : PortAddr) (v : Byte) (rest : List HostAction),
    (s.pending = [] → step s = .next s) ∧
    (s.pending = .read a :: rest →
      step s = .next { s with pending := rest, returned := s.returned ++ [some (memRead a s)] }) ∧
    (s.pending = .write a v :: rest →
      step s = .next { memWrite a v s with pending := rest, returned := s.returned ++ [none] })

/-- Every step answers a next state: no error halts the engine and no command hangs (60_exceptions.md section 3,
70_reset_and_hazards.md section 4). It leaves the configuration alone (10_state.md section 1; held as data by assumption
log 3). That it takes exactly the oldest pending action is the model's choice (assumption log 1), and so is that it
records at most one returned value (assumption log 2). -/
def Obligations.EveryStepGoesOn : Prop :=
  ∀ s : State, ∃ t, step s = .next t ∧ t.pending = s.pending.tail ∧ t.rejectedKeys = s.rejectedKeys ∧
    (t.returned = s.returned ∨ ∃ r, t.returned = s.returned ++ [r])

/-- Whatever the host has planned, as many steps as there are pending actions perform them all (20_memory.md section 3's
one total order, 70_reset_and_hazards.md section 4's "every command completes"), and one entry has been recorded for each
action other than a reset between transactions. The list of pending actions is the model's choice (assumption log 1), and
so is the recorded entry (assumption log 2); an `H-ISSUE` cut short by a reset gets no response, and that it is recorded
as `none`, and so counted, is the model's choice too (assumption log 4). -/
def Obligations.AllPendingActionsArePerformed : Prop :=
  ∀ s : State, ∃ t : State,
    Host.Core.run Sys2Proof.core s.pending.length s = .next t ∧ t.pending = [] ∧
    t.returned.length = s.returned.length + (s.pending.filter fun a => a != .reset).length

/-- On reset every buffer has `LEN` 0 and 24 zero bytes and `STATUS` is `0x00` (70_reset_and_hazards.md section 1). That
reset is an action in `pending` and leaves the rest of the host's list as it was is the model's choice (assumption
log 4, with log 1), and so is that a step with none left changes nothing (assumption log 1). -/
def Obligations.ResetActionClearsTheEngine : Prop :=
  ∀ (s : State) (rest : List HostAction), s.pending = .reset :: rest →
    ∃ t, step s = .next t ∧
      (∀ n : BufIx, (t.buf n).len = 0 ∧ ∀ j : Fin 24, (t.buf n).data[j] = 0) ∧ t.status = 0 ∧
      t.bufs = State.reset.bufs ∧ t.status = State.reset.status ∧
      t.pending = rest ∧ (rest = [] → step t = .next t)

/-- A reset that cuts an `H-ISSUE` short leaves the reset state, and the `H-ISSUE` gets no response
(70_reset_and_hazards.md section 1). The action that stands for it, its entry `none` in the record and what it leaves of
the host's list and of the configuration are the model's own choice (assumption log 4, with logs 1, 2 and 3). -/
def Obligations.ResetAbandonsTheCommand : Prop :=
  ∀ (s : State) (w : CommandWord) (rest : List HostAction), s.pending = .issueCutByReset w :: rest →
    ∃ t, step s = .next t ∧ t.bufs = State.reset.bufs ∧ t.status = 0 ∧
      t.returned = s.returned ++ [none] ∧ t.pending = rest ∧ t.rejectedKeys = s.rejectedKeys

/-- R32: the reset values of every piece of state, and that `XOR` of two empty buffers then succeeds with the empty result.
The rule's sentence on the other commands, the spec's own inference, is a statement of its own. -/
def Obligations.ResetStateIsEmpty : Prop :=
  (∀ n : BufIx, (State.reset.buf n).len.toNat = 0 ∧ ∀ j : Fin 24, (State.reset.buf n).data[j] = 0) ∧
  State.reset.status = 0 ∧ (∀ n : BufIx, State.reset.value n = []) ∧
  (∀ a : PortAddr, memRead a State.reset = 0) ∧
  ∀ rd rs1 rs2 : BufIx, Completes (.xor rd rs1 rs2) State.reset []

/-- After reset every command but `XOR` ends in a length error, and `XOR` of two empty buffers succeeds with the empty
result. The spec marks this as its own inference (10_state.md section 6). -/
def Obligations.AfterResetOnlyXorSucceeds : Prop :=
  ∀ rd rs1 rs2 : BufIx,
    Fails (.kexp rd rs1) State.reset 1 ∧ Fails (.tenc rd rs1 rs2) State.reset 1 ∧
    Fails (.tdec rd rs1 rs2) State.reset 1 ∧ Fails (.mski rd rs1) State.reset 5 ∧
    Fails (.mskr rd rs1) State.reset 5 ∧ Fails (.ipek rd rs1 rs2) State.reset 1 ∧
    Fails (.skr rd rs1 rs2) State.reset 1 ∧ Fails (.dtk rd rs1 rs2) State.reset 1 ∧
    Completes (.xor rd rs1 rs2) State.reset []

/-! ### The operand space -/

/-- R52: what `MemRead` returns at every address, and that `H-READ` changes no state of the engine. That the read stands
in `pending` and its byte in `returned` is the model's own form (assumption logs 1 and 2). -/
def Obligations.MemReadFollowsTheMap : Prop :=
  ∀ s : State,
    (∀ (n : BufIx) (j : Fin 24), memRead (BitVec.ofNat 9 (n.val * 32 + j.val)) s = (s.buf n).data[j]) ∧
    (∀ n : BufIx, (memRead (BitVec.ofNat 9 (n.val * 32 + 24)) s).toNat = (s.buf n).len.toNat) ∧
    (s.Inv → memRead 0x100 s = s.status) ∧
    (∀ a : PortAddr, a.toNat < 256 ∧ 25 ≤ a.toNat % 32 ∨ 257 ≤ a.toNat → memRead a s = 0) ∧
    (∀ (a : PortAddr) (rest : List HostAction), s.pending = .read a :: rest →
      ∃ t, step s = .next t ∧ t.bufs = s.bufs ∧ t.status = s.status ∧
        t.returned = s.returned ++ [some (memRead a s)] ∧ ∀ b, memRead b t = memRead b s)

/-- R53: a write to a `DATA` address stores that byte and nothing else, a write to a `LEN` address follows R54, and at
`STATUS` and every reserved address nothing changes; no write changes `STATUS` or starts a command. -/
def Obligations.MemWriteFollowsTheMap : Prop :=
  ∀ (s : State) (v : Byte),
    (∀ (n : BufIx) (j : Fin 24),
      let t := memWrite (BitVec.ofNat 9 (n.val * 32 + j.val)) v s
      (t.buf n).data[j] = v ∧ (∀ k : Fin 24, k ≠ j → (t.buf n).data[k] = (s.buf n).data[k]) ∧
      (t.buf n).len = (s.buf n).len ∧ ∀ m : BufIx, m ≠ n → t.buf m = s.buf m) ∧
    (∀ n : BufIx,
      let t := memWrite (BitVec.ofNat 9 (n.val * 32 + 24)) v s
      (v.toNat ≤ 24 → (t.buf n).len.toNat = v.toNat ∧ (t.buf n).data = (s.buf n).data) ∧
      (25 ≤ v.toNat → t = s) ∧ ∀ m : BufIx, m ≠ n → t.buf m = s.buf m) ∧
    memWrite 0x100 v s = s ∧
    (∀ a : PortAddr, a.toNat < 256 ∧ 25 ≤ a.toNat % 32 ∨ 257 ≤ a.toNat → memWrite a v s = s) ∧
    (∀ a : PortAddr,
      let t := memWrite a v s
      t.status = s.status ∧ t.pending = s.pending ∧ t.returned = s.returned ∧ t.rejectedKeys = s.rejectedKeys)

/-- R54: a write of 0 to 24 to a `LEN` address is taken, any other is ignored and can be seen so by reading back; no
`DATA` byte changes, what a raised `LEN` exposes is what `DATA` already held, and `LEN` stays in 0 to 24. -/
def Obligations.LenWriteIsLegalised : Prop :=
  ∀ (s : State) (n : BufIx) (v : Byte),
    let t := memWrite (BitVec.ofNat 9 (n.val * 32 + 24)) v s
    (v.toNat ≤ 24 → (t.buf n).len.toNat = v.toNat ∧ memRead (BitVec.ofNat 9 (n.val * 32 + 24)) t = v ∧
      t.value n = (s.buf n).data.toList.take v.toNat) ∧
    (25 ≤ v.toNat → t = s ∧
      memRead (BitVec.ofNat 9 (n.val * 32 + 24)) t = memRead (BitVec.ofNat 9 (n.val * 32 + 24)) s) ∧
    (∀ m : BufIx, (t.buf m).data = (s.buf m).data) ∧
    ((∀ m : BufIx, (s.buf m).len.toNat ≤ 24) → ∀ m : BufIx, (t.buf m).len.toNat ≤ 24)

/-- Reading any address after a write to any address gives the written byte exactly where the write was taken there, and
what it gave before everywhere else (20_memory.md sections 2 and 3). -/
def Obligations.ReadAfterWrite : Prop :=
  ∀ (s : State) (a b : PortAddr) (v : Byte),
    memRead b (memWrite a v s) =
      if b = a ∧ a.toNat < 256 ∧ (a.toNat % 32 < 24 ∨ a.toNat % 32 = 24 ∧ v.toNat ≤ 24) then v else memRead b s

/-- The `LOAD` directive (30_encoding.md section 5): its transactions, performed in order, leave the byte string as the
value of the buffer, touch no `DATA` byte at or above its length and no other buffer, and return nothing. The list of
pending actions and the record of what they returned are the model's own forms (assumption logs 1 and 2). -/
def Obligations.LoadDirectiveSetsTheValue : Prop :=
  ∀ (s : State) (n : BufIx) (hex : Bytes) (acts rest : List HostAction),
    loadActions n hex = some acts → s.pending = acts ++ rest →
      ∃ t : State, Host.Core.run Sys2Proof.core (hex.length + 1) s = .next t ∧ t.value n = hex ∧
        (∀ j : Fin 24, hex.length ≤ j.val → (t.buf n).data[j] = (s.buf n).data[j]) ∧
        (∀ m : BufIx, m ≠ n → t.buf m = s.buf m) ∧ t.status = s.status ∧ t.pending = rest ∧
        t.returned = s.returned ++ List.replicate (hex.length + 1) none

/-! ### How commands end -/

/-- R190 and R191: every `H-ISSUE` either completes its command, writing the destination buffer with `STATUS` and response
0, or delivers exactly one error `E`, writing no buffer, with `code(E)` in `STATUS` and as the response. Nothing else
changes, and that is so of the delivery of every error, whatever `STATUS` held. -/
def Obligations.CommandsCompleteOrFail : Prop :=
  ∀ (w : CommandWord) (s : State), ∃ t, issue w s = .next t ∧
    ((∃ i v, decode w = .ok i ∧ v.length ≤ 24 ∧ CompletesWith s t i.dest v) ∨
     (∃ e : ErrorKind, t = raiseError e s)) ∧
    ∀ e : ErrorKind, 1 ≤ e.code.toNat ∧ e.code.toNat ≤ 6 ∧ FailsWith s (raiseError e s) (e.code.setWidth 8)

/-- R224's frame: no command writes any buffer but its destination, so every operand-space byte outside the destination's
window and `STATUS` reads as before, after every command, successful or failed; after a failed one the destination's
bytes do too. All sources are read first: with any other destination the command ends alike and writes the same. -/
def Obligations.CommandsWriteOnlyTheDestination : Prop :=
  ∀ (i : Instr) (s t : State), exec i s = .next t →
    (∀ n : BufIx, n ≠ i.dest → t.buf n = s.buf n) ∧
    (∀ a : PortAddr, a.toNat / 32 ≠ i.dest.val → a ≠ 0x100 → memRead a t = memRead a s) ∧
    (t.status ≠ 0 → ∀ a : PortAddr, a ≠ 0x100 → memRead a t = memRead a s) ∧
    (∀ rd : BufIx, ∃ u, exec (i.withDest rd) s = .next u ∧ u.status = t.status ∧
      (t.status = 0 → u.buf rd = t.buf i.dest)) ∧
    t.pending = s.pending ∧ t.rejectedKeys = s.rejectedKeys

/-- R31: what a command writes and responds depends on the word, the source values and the parameters only: not on
`STATUS`, any other buffer, `DATA` bytes at or beyond `LEN`, or anything earlier. -/
def Obligations.CommandsArePure : Prop :=
  ∀ (w : CommandWord) (s1 s2 : State), s1.rejectedKeys = s2.rejectedKeys →
    (∀ i, decode w = .ok i → ∀ n ∈ i.sources, s1.value n = s2.value n) →
    ∃ t1 t2, issue w s1 = .next t1 ∧ issue w s2 = .next t2 ∧ t1.status = t2.status ∧
      (∃ r, t1.returned = s1.returned ++ [r] ∧ t2.returned = s2.returned ++ [r]) ∧
      (∀ i, decode w = .ok i → t1.status = 0 → t1.buf i.dest = t2.buf i.dest)

/-- R26: the codes of `ERR`; `STATUS` reads with bits 7:3 zero and `ERR` is never left at 7; every command overwrites it, whatever it held, and
no command's outcome depends on it; reads and writes of the port leave it alone, a write to its own address too. -/
def Obligations.StatusFollowsTheLastCommand : Prop :=
  State.reset.status = 0 ∧
  codeOk = 0 ∧ ErrorKind.invalidKeyLength.code = 1 ∧ ErrorKind.invalidBlockLength.code = 2 ∧
  ErrorKind.lengthMismatch.code = 3 ∧ ErrorKind.cipherInitError.code = 4 ∧ ErrorKind.invalidKsnLength.code = 5 ∧
  ErrorKind.illegalCommand.code = 6 ∧
  ∀ (s : State) (w : CommandWord) (x v : Byte) (a : PortAddr) (rest : List HostAction),
    (memRead 0x100 s).toNat ≤ 7 ∧
    issue w { s with status := x } = issue w s ∧
    (∃ t, issue w s = .next t ∧ t.status.toNat ≤ 6 ∧ t.returned = s.returned ++ [some t.status] ∧
      memRead 0x100 t = t.status) ∧
    memWrite 0x100 v s = s ∧
    (s.pending = .write a v :: rest → ∃ t, step s = .next t ∧ t.status = s.status) ∧
    (s.pending = .read a :: rest → ∃ t, step s = .next t ∧ t.status = s.status)

/-- R187: which command can end with which code; a code not listed never appears, each listed one does, and code 4
appears only when `RejectKey` rejects some key. -/
def Obligations.ErrorCodesOfEachCommand : Prop :=
  let codes : Instr → List Byte := fun i =>
    match i with
    | .kexp .. => [0, 1]
    | .tenc .. => [0, 1, 2, 4]
    | .tdec .. => [0, 1, 2, 4]
    | .xor .. => [0, 3]
    | .mski .. => [0, 5]
    | .mskr .. => [0, 5]
    | .ipek .. => [0, 1, 4, 5]
    | .skr .. => [0, 1, 4, 5]
    | .dtk .. => [0, 1, 4, 5]
  (∀ (i : Instr) (s t : State), exec i s = .next t →
    t.status ∈ codes i ∧ (t.status = 4 → ∃ k, s.rejectKey k = true)) ∧
  (∀ i ∈ [Instr.kexp 3 1, .tenc 3 1 2, .tdec 3 1 2, .xor 3 1 2, .mski 3 1, .mskr 3 1, .ipek 3 1 2, .skr 3 1 2,
      .dtk 3 1 2],
    ∀ c ∈ codes i, ∃ s t, exec i s = .next t ∧ t.status = c)

/-- A legal state: `LEN` holds 0 to 24 in every buffer (20_memory.md section 2), `STATUS[7:3]` is 0 and `ERR` is never 7
(10_state.md section 3). Every step from a legal state leads to a legal state. -/
def Obligations.StepKeepsLegalStates : Prop :=
  ∀ s t : State, s.Inv → step s = .next t → t.Inv

/-- The state after reset is legal. -/
def Obligations.ResetStateIsLegal : Prop :=
  State.reset.Inv

/-! ### The Block Cipher Primitive -/

/-- R104: the textbook vectors of single DES, with the round keys and the halves after every round of the first. -/
def Obligations.DesTextbookVectors : Prop :=
  let k : Bytes := [0x13, 0x34, 0x57, 0x79, 0x9B, 0xBC, 0xDF, 0xF1]
  let b : Bytes := [0x01, 0x23, 0x45, 0x67, 0x89, 0xAB, 0xCD, 0xEF]
  let c : Bytes := [0x85, 0xE8, 0x13, 0x54, 0x0F, 0x0A, 0xB4, 0x05]
  let ip : BitVec 64 := applyTable 64 tableIP (toBlock b)
  desE k b = c ∧ desD k c = b ∧
  desE b [0x4E, 0x6F, 0x77, 0x20, 0x69, 0x73, 0x20, 0x74] = [0x3F, 0xA4, 0x0E, 0x8A, 0x98, 0x4D, 0x48, 0x15] ∧
  roundKeys (toBlock k) =
    [0x1B02EFFC7072, 0x79AED9DBC9E5, 0x55FC8A42CF99, 0x72ADD6DB351D, 0x7CEC07EB53A8, 0x63A53E507B2F,
     0xEC84B7F618BC, 0xF78A3AC13BFB, 0xE0DBEBEDE781, 0xB1F347BA464F, 0x215FD3DED386, 0x7571F59467E9,
     0x97C5D1FABA41, 0x5F43B7F2E73A, 0xBF918D3D3F0A, 0xCB3D8B0E17F5] ∧
  ((List.range 17).map fun n =>
      feistelRounds ((roundKeys (toBlock k)).take n) (leftHalf ip, rightHalf ip)) =
    [(0xCC00CCFF, 0xF0AAF0AA), (0xF0AAF0AA, 0xEF4A6544), (0xEF4A6544, 0xCC017709), (0xCC017709, 0xA25C0BF4),
     (0xA25C0BF4, 0x77220045), (0x77220045, 0x8A4FA637), (0x8A4FA637, 0xE967CD69), (0xE967CD69, 0x064ABA10),
     (0x064ABA10, 0xD5694B90), (0xD5694B90, 0x247CC67A), (0x247CC67A, 0xB7D5D7B2), (0xB7D5D7B2, 0xC5783C78),
     (0xC5783C78, 0x75BD1858), (0x75BD1858, 0x18C3155A), (0x18C3155A, 0xC28C960D), (0xC28C960D, 0x43423234),
     (0x43423234, 0x0A4CD995)] ∧
  ofBlock (applyTable 64 tableFP (joinHalves 0x0A4CD995 0x43423234)) = c

/-- `FP` is the inverse of `IP`, in both orders (40_des_algorithm.md section 2). -/
def Obligations.FinalPermutationInvertsInitial : Prop :=
  ∀ x : BitVec 64,
    applyTable 64 tableFP (applyTable 64 tableIP x : BitVec 64) = x ∧
    applyTable 64 tableIP (applyTable 64 tableFP x : BitVec 64) = x

/-- For every 8-byte key and block, `DES_D` undoes `DES_E` and `DES_E` undoes `DES_D`, so that both are one-to-one. The
spec marks these laws as its own inference (40_des_algorithm.md section 4). -/
def Obligations.DesDecipherInvertsEncipher : Prop :=
  ∀ k b : Bytes, k.length = 8 → b.length = 8 →
    desD k (desE k b) = b ∧ desE k (desD k b) = b ∧
    ∀ b' : Bytes, b'.length = 8 → desE k b = desE k b' → b = b'

/-- Bit 0 of a key byte has no effect on either cipher. The spec marks this law as its own inference
(40_des_algorithm.md section 4). -/
def Obligations.DesIgnoresParityBits : Prop :=
  ∀ k k' b : Bytes, k.length = 8 → k'.length = 8 →
    k.map (· &&& 0xFE) = k'.map (· &&& 0xFE) → desE k b = desE k' b ∧ desD k b = desD k' b

/-- Eight bytes as a DES quantity: bit `k` (1 to 64) is bit `7 - ((k-1) mod 8)` of byte `(k-1) div 8`, and the byte string of
a quantity is its inverse (40_des_algorithm.md section 1). -/
def Obligations.DesBitNumbering : Prop :=
  (∀ (b : Bytes) (k : Nat), 1 ≤ k → k ≤ 64 →
    (toBlock b).getMsbD (k - 1) = (b.getD ((k - 1) / 8) 0).getLsbD (7 - (k - 1) % 8)) ∧
  (∀ b : Bytes, b.length = 8 → ofBlock (toBlock b) = b) ∧
  (∀ x : BitVec 64, (ofBlock x).length = 8 ∧ toBlock (ofBlock x) = x)

/-- R113: `encryptBlock` and `decryptBlock` with every check in the order in which it is made: key length, block length,
key acceptance; the result is always exactly 8 bytes. -/
def Obligations.BlockFunctionsCheckInOrder : Prop :=
  ∀ (reject : Bytes → Bool) (key block : Bytes),
    let legalKey := key.length = 16 ∨ key.length = 24
    let k := tripleLength key
    (¬ legalKey → encryptBlock reject key block = .error .invalidKeyLength ∧
      decryptBlock reject key block = .error .invalidKeyLength) ∧
    (legalKey ∧ block.length ≠ 8 → encryptBlock reject key block = .error .invalidBlockLength ∧
      decryptBlock reject key block = .error .invalidBlockLength) ∧
    (legalKey ∧ block.length = 8 ∧ reject k = true → encryptBlock reject key block = .error .cipherInitError ∧
      decryptBlock reject key block = .error .cipherInitError) ∧
    (legalKey ∧ block.length = 8 ∧ reject k = false →
      encryptBlock reject key block = .ok (tdeaEncrypt key block) ∧ (tdeaEncrypt key block).length = 8 ∧
      decryptBlock reject key block = .ok (tdeaDecrypt key block) ∧ (tdeaDecrypt key block).length = 8)

/-- R112: `KEXP` in full: its word, its result for 16 and 24 bytes, its one error for every other length, and the
example. `rd = rs1` is allowed, and `RejectKey` is not consulted. -/
def Obligations.KexpExpandsTheKey : Prop :=
  ∀ (s : State) (rd rs1 : BufIx),
    encode (.kexp rd rs1) = BitVec.ofNat 16 (0x1000 + rd.val * 512 + rs1.val * 64) ∧
    ((s.value rs1).length = 16 → Completes (.kexp rd rs1) s (s.value rs1 ++ (s.value rs1).take 8)) ∧
    ((s.value rs1).length = 24 → Completes (.kexp rd rs1) s (s.value rs1)) ∧
    ((s.value rs1).length ≠ 16 ∧ (s.value rs1).length ≠ 24 → Fails (.kexp rd rs1) s 1) ∧
    encode (.kexp 2 1) = 0x1440 ∧
    Completes (.kexp 2 1)
      (State.holding [(1, [0x01, 0x23, 0x45, 0x67, 0x89, 0xAB, 0xCD, 0xEF, 0xFE, 0xDC, 0xBA, 0x98, 0x76, 0x54, 0x32,
        0x10])])
      [0x01, 0x23, 0x45, 0x67, 0x89, 0xAB, 0xCD, 0xEF, 0xFE, 0xDC, 0xBA, 0x98, 0x76, 0x54, 0x32, 0x10, 0x01, 0x23,
        0x45, 0x67, 0x89, 0xAB, 0xCD, 0xEF]

/-- `TENC` on every operand (41_block_cipher.md section 2): the Triple-DES encryption of the block where the lengths are
legal and the expanded key is not rejected, and otherwise the first error that holds. -/
def Obligations.TencEncryptsOneBlock : Prop :=
  ∀ (s : State) (rd rs1 rs2 : BufIx),
    let key := s.value rs1
    let block := s.value rs2
    let legalKey := key.length = 16 ∨ key.length = 24
    (legalKey ∧ block.length = 8 ∧ s.rejectKey (tripleLength key) = false →
      Completes (.tenc rd rs1 rs2) s (tdeaEncrypt key block)) ∧
    (¬ legalKey → Fails (.tenc rd rs1 rs2) s 1) ∧
    (legalKey ∧ block.length ≠ 8 → Fails (.tenc rd rs1 rs2) s 2) ∧
    (legalKey ∧ block.length = 8 ∧ s.rejectKey (tripleLength key) = true → Fails (.tenc rd rs1 rs2) s 4)

/-- `TDEC` on every operand (41_block_cipher.md section 2). -/
def Obligations.TdecDecryptsOneBlock : Prop :=
  ∀ (s : State) (rd rs1 rs2 : BufIx),
    let key := s.value rs1
    let block := s.value rs2
    let legalKey := key.length = 16 ∨ key.length = 24
    (legalKey ∧ block.length = 8 ∧ s.rejectKey (tripleLength key) = false →
      Completes (.tdec rd rs1 rs2) s (tdeaDecrypt key block)) ∧
    (¬ legalKey → Fails (.tdec rd rs1 rs2) s 1) ∧
    (legalKey ∧ block.length ≠ 8 → Fails (.tdec rd rs1 rs2) s 2) ∧
    (legalKey ∧ block.length = 8 ∧ s.rejectKey (tripleLength key) = true → Fails (.tdec rd rs1 rs2) s 4)

/-- The round trip on the machine: where the key is legal and accepted and the block has 8 bytes, `TENC` (the codec's
`ENCD`) into a buffer other than the key's, then `TDEC` (`DECD`) of that buffer under the same key, both complete and
give the block back; and so in the other order. The spec marks the law as its own inference (41_block_cipher.md
section 3). -/
def Obligations.DecryptionUndoesEncryption : Prop :=
  ∀ (s : State) (mid rd rk rb : BufIx),
    (s.value rk).length = 16 ∨ (s.value rk).length = 24 → (s.value rb).length = 8 →
    s.rejectKey (tripleLength (s.value rk)) = false → mid ≠ rk →
    (∃ t u, exec (expandEncd mid rk rb) s = .next t ∧ exec (expandDecd rd rk mid) t = .next u ∧
      t.status = 0 ∧ u.status = 0 ∧ u.value rd = s.value rb) ∧
    (∃ t u, exec (expandDecd mid rk rb) s = .next t ∧ exec (expandEncd rd rk mid) t = .next u ∧
      t.status = 0 ∧ u.status = 0 ∧ u.value rd = s.value rb)

/-- A 16-byte key and its own expansion encrypt and decrypt alike, and a 16-byte key with equal halves is single DES
under that half. The spec marks both as its own inference (41_block_cipher.md section 2). -/
def Obligations.KeyingOptionsCoincide : Prop :=
  ∀ (reject : Bytes → Bool) (key half block : Bytes), key.length = 16 → half.length = 8 → block.length = 8 →
    encryptBlock reject key block = encryptBlock reject (key ++ key.take 8) block ∧
    decryptBlock reject key block = decryptBlock reject (key ++ key.take 8) block ∧
    (reject (half ++ half ++ half) = false →
      encryptBlock reject (half ++ half) block = .ok (desE half block) ∧
      decryptBlock reject (half ++ half) block = .ok (desD half block))

/-! ### The Byte Utilities -/

/-- R131: `XOR` in full: its word, its result for any equal lengths, its one error, equal sources, empty sources, and the
example. -/
def Obligations.XorIsElementWise : Prop :=
  ∀ (s : State) (rd rs1 rs2 : BufIx),
    encode (.xor rd rs1 rs2) = BitVec.ofNat 16 (0x4000 + rd.val * 512 + rs1.val * 64 + rs2.val * 8) ∧
    (s.value rs1).length ≤ 24 ∧
    ((s.value rs1).length = (s.value rs2).length →
      ∃ r : Bytes, Completes (.xor rd rs1 rs2) s r ∧ r.length = (s.value rs1).length ∧
        ∀ j, j < r.length → r.getD j 0 = (s.value rs1).getD j 0 ^^^ (s.value rs2).getD j 0) ∧
    ((s.value rs1).length ≠ (s.value rs2).length → Fails (.xor rd rs1 rs2) s 3) ∧
    Completes (.xor rd rs1 rs1) s (List.replicate (s.value rs1).length 0) ∧
    (s.value rs1 = [] ∧ s.value rs2 = [] → Completes (.xor rd rs1 rs2) s []) ∧
    encode (.xor 3 1 2) = 0x4650 ∧
    Completes (.xor 3 1 2)
      (State.holding [(1, [0x01, 0x23, 0x45, 0x67, 0x89, 0xAB, 0xCD, 0xEF]),
        (2, [0xC0, 0xC0, 0xC0, 0xC0, 0x00, 0x00, 0x00, 0x00])])
      [0xC1, 0xE3, 0x85, 0xA7, 0x89, 0xAB, 0xCD, 0xEF]

/-- The laws of XOR on equally long byte strings: commutative, associative, its own inverse, zero with itself. The spec
marks them as its own inference (42_byte_utilities.md section 3). -/
def Obligations.XorLaws : Prop :=
  ∀ a b c : Bytes, a.length = b.length → b.length = c.length →
    xorBytes a b = xorBytes b a ∧
    (do let x ← xorBytes a b; xorBytes x c) = (do let y ← xorBytes b c; xorBytes a y) ∧
    (do let x ← xorBytes a b; xorBytes x b) = .ok a ∧
    xorBytes a a = .ok (List.replicate a.length 0)

/-- R135: `MSKI` in full: its word, its result for 8 to 24 bytes, its one error, that masking its own result changes
nothing, and the two examples. -/
def Obligations.MskiMasksTheFirstEightBytes : Prop :=
  ∀ (s : State) (rd rs1 : BufIx),
    encode (.mski rd rs1) = BitVec.ofNat 16 (0x5000 + rd.val * 512 + rs1.val * 64) ∧
    (8 ≤ (s.value rs1).length → Completes (.mski rd rs1) s (ipekMasked (s.value rs1))) ∧
    ((s.value rs1).length < 8 → Fails (.mski rd rs1) s 5) ∧
    (∀ ksn : Bytes, 8 ≤ ksn.length → maskKsnForIpek (ipekMasked ksn) = .ok (ipekMasked ksn)) ∧
    encode (.mski 4 1) = 0x5840 ∧
    Completes (.mski 4 1)
      (State.holding [(1, [0xFF, 0xFF, 0x98, 0x76, 0x54, 0x32, 0x10, 0xE0, 0x00, 0x01])])
      [0xFF, 0xFF, 0x98, 0x76, 0x54, 0x32, 0x10, 0xE0] ∧
    Completes (.mski 4 1)
      (State.holding [(1, [0xFF, 0xFF, 0xFF, 0xFF, 0xFF, 0xFF, 0xFF, 0xFF, 0xFF, 0xFF])])
      [0xFF, 0xFF, 0xFF, 0xFF, 0xFF, 0xFF, 0xFF, 0xE0]

/-- R136: `MSKR` in full: its word, its result for 8 and 10 bytes, its one error, that a 10-byte KSN and its last 8 bytes
give the same result, that masking its own result changes nothing, and the three examples. -/
def Obligations.MskrMasksTheWindow : Prop :=
  ∀ (s : State) (rd rs1 : BufIx),
    encode (.mskr rd rs1) = BitVec.ofNat 16 (0x6000 + rd.val * 512 + rs1.val * 64) ∧
    ((s.value rs1).length = 8 ∨ (s.value rs1).length = 10 →
      Completes (.mskr rd rs1) s (roundMasked (ksnWindow (s.value rs1)))) ∧
    ((s.value rs1).length ≠ 8 ∧ (s.value rs1).length ≠ 10 → Fails (.mskr rd rs1) s 5) ∧
    (∀ ksn : Bytes, ksn.length = 10 → maskKsnForRound ksn = maskKsnForRound (ksn.drop 2)) ∧
    (∀ ksn : Bytes, ksn.length = 8 ∨ ksn.length = 10 →
      maskKsnForRound (roundMasked (ksnWindow ksn)) = .ok (roundMasked (ksnWindow ksn))) ∧
    encode (.mskr 5 1) = 0x6A40 ∧
    Completes (.mskr 5 1)
      (State.holding [(1, [0xFF, 0xFF, 0x98, 0x76, 0x54, 0x32, 0x10, 0xE0, 0x00, 0x01])])
      [0x98, 0x76, 0x54, 0x32, 0x10, 0xE0, 0x00, 0x00] ∧
    Completes (.mskr 5 1)
      (State.holding [(1, [0x98, 0x76, 0x54, 0x32, 0x10, 0xFF, 0xFF, 0xFF])])
      [0x98, 0x76, 0x54, 0x32, 0x10, 0xE0, 0x00, 0x00] ∧
    Completes (.mskr 5 1)
      (State.holding [(1, [0xFF, 0xFF, 0xFF, 0xFF, 0xFF, 0xFF, 0xFF, 0xFF, 0xFF, 0xFF])])
      [0xFF, 0xFF, 0xFF, 0xFF, 0xFF, 0xE0, 0x00, 0x00]

/-! ### The key derivations -/

/-- `IPEK` on every operand (43_ipek.md): the two encryptions of the masked KSN, under the BDK and under its variant,
where the lengths are legal and neither expanded key is rejected, and otherwise the first error that holds. -/
def Obligations.IpekDerivesTheInitialKey : Prop :=
  ∀ (s : State) (rd rs1 rs2 : BufIx),
    let bdk := s.value rs1
    let ksn := s.value rs2
    (bdk.length = 16 ∧ 8 ≤ ksn.length ∧ foldAccepted s bdk ipekVariant →
      Completes (.ipek rd rs1 rs2) s (foldResult bdk (ipekMasked ksn) ipekVariant)) ∧
    (bdk.length ≠ 16 → Fails (.ipek rd rs1 rs2) s 1) ∧
    (bdk.length = 16 ∧ ksn.length < 8 → Fails (.ipek rd rs1 rs2) s 5) ∧
    (bdk.length = 16 ∧ 8 ≤ ksn.length ∧ ¬ foldAccepted s bdk ipekVariant → Fails (.ipek rd rs1 rs2) s 4)

/-- The IPEK does not depend on bits 4..0 of KSN byte 7 nor on any byte at index 8 or above. The spec marks this as its
own inference (43_ipek.md, the corner cases of `IPEK`). -/
def Obligations.IpekIgnoresTheCounter : Prop :=
  ∀ (reject : Bytes → Bool) (bdk ksn ksn' : Bytes), 8 ≤ ksn.length → 8 ≤ ksn'.length →
    ksn.take 7 = ksn'.take 7 → ksn.getD 7 0 &&& 0xE0 = ksn'.getD 7 0 &&& 0xE0 →
    generateIpek reject bdk ksn = generateIpek reject bdk ksn'

/-- The IPEK rebuilt from the finer functions: mask the KSN, encrypt it under the BDK, XOR the BDK with `V ‖ V`, encrypt
under that, and concatenate (43_ipek.md, its laws, part (c)). -/
def Obligations.IpekDecomposes : Prop :=
  ∀ (reject : Bytes → Bool) (bdk ksn m l v r : Bytes), bdk.length = 16 →
    maskKsnForIpek ksn = .ok m → encryptBlock reject bdk m = .ok l →
    xorBytes bdk (ipekVariant ++ ipekVariant) = .ok v → encryptBlock reject v m = .ok r →
    generateIpek reject bdk ksn = .ok (l ++ r)

/-- `SKR` on every operand (44_session_key.md section 2). -/
def Obligations.SkrPerformsOneRound : Prop :=
  ∀ (s : State) (rd rs1 rs2 : BufIx),
    let key := s.value rs1
    let ksn := s.value rs2
    let legalKsn := ksn.length = 8 ∨ ksn.length = 10
    (key.length = 16 ∧ legalKsn ∧ foldAccepted s key roundVariant →
      Completes (.skr rd rs1 rs2) s (roundResult ksn key)) ∧
    (key.length ≠ 16 → Fails (.skr rd rs1 rs2) s 1) ∧
    (key.length = 16 ∧ ¬ legalKsn → Fails (.skr rd rs1 rs2) s 5) ∧
    (key.length = 16 ∧ legalKsn ∧ ¬ foldAccepted s key roundVariant → Fails (.skr rd rs1 rs2) s 4)

/-- A session-key round does not depend on the 21 counter bits of the KSN, nor on bytes 0 and 1 of a 10-byte KSN. The spec
marks this as its own inference (44_session_key.md section 2). -/
def Obligations.SkrIgnoresTheCounter : Prop :=
  ∀ (reject : Bytes → Bool) (key ksn ksn' : Bytes),
    ksn.length = 8 ∨ ksn.length = 10 → ksn'.length = 8 ∨ ksn'.length = 10 →
    (∃ c, ksnWindow ksn' = withCounter (ksnWindow ksn) c ∧ c < 2 ^ 21) →
    generateSessionKey reject key ksn = generateSessionKey reject key ksn'

/-- `DTK` on every operand (44_session_key.md sections 3 and 4): with `n` one bits in the counter of the KSN8, the round
`F` applied `n + 1` times to the IPEK, where the lengths are legal and no round's key is rejected, and otherwise the
first error that holds. That the chain is this iteration is the spec's own inference from its steps. -/
def Obligations.DtkIteratesTheRound : Prop :=
  ∀ (s : State) (rd rs1 rs2 : BufIx),
    let ipek := s.value rs1
    let ksn := s.value rs2
    let legalKsn := ksn.length = 8 ∨ ksn.length = 10
    let n := (counterOnes (counterNat (ksnWindow ksn))).length
    (ipek.length = 16 ∧ legalKsn ∧ (∀ j, j ≤ n → foldAccepted s (roundIterate ksn j ipek) roundVariant) →
      Completes (.dtk rd rs1 rs2) s (roundIterate ksn (n + 1) ipek)) ∧
    (ipek.length ≠ 16 → Fails (.dtk rd rs1 rs2) s 1) ∧
    (ipek.length = 16 ∧ ¬ legalKsn → Fails (.dtk rd rs1 rs2) s 5) ∧
    (ipek.length = 16 ∧ legalKsn ∧ (∃ j, j ≤ n ∧ ¬ foldAccepted s (roundIterate ksn j ipek) roundVariant) →
      Fails (.dtk rd rs1 rs2) s 4)

/-- R156: the 21-bit counter of a KSN8 as a number, the byte and bit each of its bits lives at, in the KSN8 and in the
10-byte KSN, and that no operation of the engine on a KSN8 changes a bit of device identification: clearing the counter,
setting one of its bits, and the round mask keep bytes 0 to 4 and bits 7..5 of byte 5. -/
def Obligations.CounterLayout : Prop :=
  (∀ k : Bytes, (counter k).toNat = counterNat k ∧ counterNat k ≤ 0x1FFFFF) ∧
  (∀ (k : Bytes) (n : Nat), n < 21 → (counter k).getLsbD n = (k.getD (7 - n / 8) 0).getLsbD (n % 8)) ∧
  (∀ (ksn k : Bytes) (n : Nat), ksn.length = 10 → n < 21 → selectKsn8 ksn = .ok k →
    (counter k).getLsbD n = (ksn.getD (9 - n / 8) 0).getLsbD (n % 8)) ∧
  (∀ (work : Bytes) (n : Nat), work.length = 8 → n < 21 →
    ∀ w ∈ [setCounterBit work n, clearCounter work, roundMasked work],
      w.length = 8 ∧ w.take 5 = work.take 5 ∧ w.getD 5 0 &&& 0xE0 = work.getD 5 0 &&& 0xE0)

/-- The working KSN of the chain is cumulative: after the loop has passed bit `p` it is the KSN8 with exactly the counter's
one bits up to and including `p`, and after bit 20 it is the KSN8 itself (44_session_key.md section 3). -/
def Obligations.WorkingKsnIsCumulative : Prop :=
  ∀ (k : Bytes) (p : Nat), k.length = 8 → p < 21 →
    ((counterOnes (counterNat k)).filter (· ≤ p)).foldl setCounterBit (clearCounter k) =
      withCounter k (counterNat k % 2 ^ (p + 1)) ∧
    (counterOnes (counterNat k)).foldl setCounterBit (clearCounter k) = k

/-- The chain as a sequence of rounds: one for each one bit of the counter, in ascending order, with the KSN8 whose counter
holds the one bits up to and including it, and a final round with the KSN itself, errors included. The spec marks the
decomposition as its own inference (44_session_key.md section 4). -/
def Obligations.DtkDecomposesIntoRounds : Prop :=
  ∀ (reject : Bytes → Bool) (ipek k : Bytes), ipek.length = 16 → k.length = 8 →
    deriveTransactionKey reject ipek k =
      (do
        let cur ← (counterOnes (counterNat k)).foldlM
          (fun key p => generateSessionKey reject key (withCounter k (counterNat k % 2 ^ (p + 1)))) ipek
        generateSessionKey reject cur k)

/-- Two KSNs of one device whose counters have the same number of one bits give the same transaction key
(44_session_key.md section 4, the spec's own inference). -/
def Obligations.DtkDependsOnTheNumberOfOnes : Prop :=
  ∀ (reject : Bytes → Bool) (ipek k : Bytes) (c c' : Nat), k.length = 8 → c < 2 ^ 21 → c' < 2 ^ 21 →
    (counterOnes c).length = (counterOnes c').length →
    deriveTransactionKey reject ipek (withCounter k c) = deriveTransactionKey reject ipek (withCounter k c')

/-- When the KSN's counter is zero, `DTK` is one `SKR` (44_session_key.md section 4, part (a) of the stated
properties). -/
def Obligations.DtkWithCounterZeroIsSkr : Prop :=
  ∀ (s : State) (rd rs1 rs2 : BufIx), counterNat (ksnWindow (s.value rs2)) = 0 →
    exec (.dtk rd rs1 rs2) s = exec (.skr rd rs1 rs2) s

/-- The document's end-to-end scenario on the machine (95_test_vectors.md section 1.1): the IPEK, the session key, the
ciphertext and the recovered plaintext, each the result of one command from a state that holds its operands. -/
def Obligations.EndToEndScenario : Prop :=
  let bdk : Bytes := [0x01, 0x23, 0x45, 0x67, 0x89, 0xAB, 0xCD, 0xEF, 0xFE, 0xDC, 0xBA, 0x98, 0x76, 0x54, 0x32, 0x10]
  let ksn : Bytes := [0xFF, 0xFF, 0x98, 0x76, 0x54, 0x32, 0x10, 0xE0, 0x00, 0x01]
  let data : Bytes := [0x31, 0x32, 0x33, 0x34, 0x35, 0x36, 0x37, 0x38]
  let ipek : Bytes := [0x6A, 0xC2, 0x92, 0xFA, 0xA1, 0x31, 0x5B, 0x4D, 0x85, 0x8A, 0xB3, 0xA3, 0xD7, 0xD5, 0x93, 0x3A]
  let session : Bytes :=
    [0xBC, 0x41, 0x4A, 0x31, 0x39, 0x3F, 0xFA, 0x13, 0x82, 0x0E, 0xF3, 0xFB, 0x86, 0x9B, 0x12, 0xDB]
  let cipher : Bytes := [0x5F, 0x86, 0x55, 0x82, 0xDE, 0x3A, 0x05, 0xAB]
  Completes (.ipek 2 0 1) (State.holding [(0, bdk), (1, ksn)]) ipek ∧
  Completes (.dtk 3 2 1) (State.holding [(1, ksn), (2, ipek)]) session ∧
  Completes (expandEncd 5 3 4) (State.holding [(3, session), (4, data)]) cipher ∧
  Completes (expandDecd 6 3 5) (State.holding [(3, session), (5, cipher)]) data
end

