-- ==== Sys2Proof/Laws/ByteUtilities.lean ====
section
/-! SUPPORT. The byte functions in closed form (42_byte_utilities.md): one lemma for each that says everything it can
answer. -/

namespace Sys2Proof.Machine

@[simp] theorem require_true (e : ErrorKind) : require true e = .ok () := rfl
@[simp] theorem require_false (e : ErrorKind) : require false e = .error e := rfl

/-- An 8-byte string, byte by byte. -/
theorem eq_bytes_of_length_eight {s : Bytes} (h : s.length = 8) :
    ∃ a b c d e f g i : Byte, s = [a, b, c, d, e, f, g, i] := by
  match s, h with
  | [a, b, c, d, e, f, g, i], _ => exact ⟨a, b, c, d, e, f, g, i, rfl⟩

/-- A 10-byte string, byte by byte. -/
theorem eq_bytes_of_length_ten {s : Bytes} (h : s.length = 10) :
    ∃ x y a b c d e f g i : Byte, s = [x, y, a, b, c, d, e, f, g, i] := by
  match s, h with
  | [x, y, a, b, c, d, e, f, g, i], _ => exact ⟨x, y, a, b, c, d, e, f, g, i, rfl⟩

theorem and_byte_zero (x : Byte) : x &&& 0 = 0 := BitVec.and_zero
theorem and_byte_ones (x : Byte) : x &&& 0xFF = x := BitVec.and_allOnes

/-- Everything `xor(a, b)` can answer (R130). -/
theorem xorBytes_eq (a b : Bytes) :
    xorBytes a b = if a.length = b.length then .ok (List.zipWith (· ^^^ ·) a b) else .error .lengthMismatch := by
  unfold xorBytes
  by_cases h : a.length = b.length
  · rw [if_pos h, h, beq_self_eq_true]; rfl
  · rw [if_neg h, beq_false_of_ne h]; rfl

/-- Everything `maskKsnForIpek(ksn)` can answer (R132). -/
theorem maskKsnForIpek_eq (ksn : Bytes) :
    maskKsnForIpek ksn = if 8 ≤ ksn.length then .ok (ipekMasked ksn) else .error .invalidKsnLength := by
  unfold maskKsnForIpek
  by_cases h : 8 ≤ ksn.length
  · obtain ⟨p, q, rfl, hp⟩ : ∃ p q : Bytes, ksn = p ++ q ∧ p.length = 8 :=
      ⟨ksn.take 8, ksn.drop 8, by simp, by simp [h]⟩
    obtain ⟨a, b, c, d, e, f, g, i, rfl⟩ := eq_bytes_of_length_eight hp
    simp [slice, setByte, byteAt, ipekMasked, Config.ipekKsnByte7And]
  · simp [h]

/-- Everything `selectKsn8(ksn)` can answer (R133). -/
theorem selectKsn8_eq (ksn : Bytes) :
    selectKsn8 ksn =
      if ksn.length = 8 ∨ ksn.length = 10 then .ok (ksnWindow ksn) else .error .invalidKsnLength := by
  unfold selectKsn8
  by_cases h : ksn.length = 10
  · obtain ⟨x, y, a, b, c, d, e, f, g, i, rfl⟩ := eq_bytes_of_length_ten h
    rfl
  · by_cases h' : ksn.length = 8 <;> simp [h, h', ksnWindow]

theorem ksnWindow_length {ksn : Bytes} (h : ksn.length = 8 ∨ ksn.length = 10) : (ksnWindow ksn).length = 8 := by
  simp [ksnWindow]; omega

/-- The round mask on a KSN8 is the rule's own sequence of three byte changes (R134). -/
theorem maskKsnForRound_steps (ksn : Bytes) :
    maskKsnForRound ksn = (do
      let m ← selectKsn8 ksn
      let m := setByte m 5 (byteAt m 5 &&& 0xE0)
      let m := setByte m 6 0x00
      let m := setByte m 7 0x00
      return m) := by
  unfold maskKsnForRound
  rw [selectKsn8_eq]
  split
  · obtain ⟨a, b, c, d, e, f, g, i, h⟩ := eq_bytes_of_length_eight (ksnWindow_length ‹_›)
    rw [h]
    show Except.ok _ = Except.ok _
    simp only [maskBytes, Config.roundKsnAnd, setByte, byteAt, List.zipWith, List.set, List.getD, and_byte_ones,
      and_byte_zero]
    rfl
  · rfl

/-- Everything `maskKsnForRound(ksn)` can answer (R134). -/
theorem maskKsnForRound_eq (ksn : Bytes) :
    maskKsnForRound ksn =
      if ksn.length = 8 ∨ ksn.length = 10 then .ok (roundMasked (ksnWindow ksn)) else .error .invalidKsnLength := by
  rw [maskKsnForRound_steps, selectKsn8_eq]
  split
  · obtain ⟨a, b, c, d, e, f, g, i, h⟩ := eq_bytes_of_length_eight (ksnWindow_length ‹_›)
    rw [h]
    rfl
  · rfl

theorem ipekMasked_length {ksn : Bytes} (h : 8 ≤ ksn.length) : (ipekMasked ksn).length = 8 := by
  simp [ipekMasked]; omega

theorem roundMasked_length {k8 : Bytes} (h : k8.length = 8) : (roundMasked k8).length = 8 := by
  simp [roundMasked, h]

end Sys2Proof.Machine
end

