-- ==== Sys2Proof/Laws/Ciphers.lean ====
section
/-! SUPPORT. The cipher functions' lengths and the fold in closed form (41_block_cipher.md, 43_ipek.md R146). -/

namespace Sys2Proof.Machine

@[simp] theorem ofBlock_length (x : BitVec 64) : (ofBlock x).length = 8 := rfl
@[simp] theorem desE_length (k b : Bytes) : (desE k b).length = 8 := rfl
@[simp] theorem desD_length (k b : Bytes) : (desD k b).length = 8 := rfl
@[simp] theorem tdesE_length (k b : Bytes) : (tdesE k b).length = 8 := rfl
@[simp] theorem tdesD_length (k b : Bytes) : (tdesD k b).length = 8 := rfl

/-- Everything `expandKey(k)` can answer (R110). -/
theorem expandKey_eq (k : Bytes) :
    expandKey k = if k.length = 16 ∨ k.length = 24 then .ok (tripleLength k) else .error .invalidKeyLength := by
  unfold expandKey tripleLength
  by_cases h : k.length = 16
  · simp [h, slice]
  · by_cases h' : k.length = 24 <;> simp [h, h']

theorem tripleLength_length {k : Bytes} (h : k.length = 16 ∨ k.length = 24) : (tripleLength k).length = 24 := by
  unfold tripleLength
  split
  · simp; omega
  · omega

/-- The three slices of a 24-byte key (R111). -/
theorem tdesE_eq {k : Bytes} (h : k.length = 24) (b : Bytes) :
    tdesE k b = desE (k.drop 16) (desD ((k.drop 8).take 8) (desE (k.take 8) b)) := by
  have : (k.drop 16).take 8 = k.drop 16 := List.take_of_length_le (by simp [h])
  simp [tdesE, slice, this]

theorem tdesD_eq {k : Bytes} (h : k.length = 24) (b : Bytes) :
    tdesD k b = desD (k.take 8) (desE ((k.drop 8).take 8) (desD (k.drop 16) b)) := by
  have : (k.drop 16).take 8 = k.drop 16 := List.take_of_length_le (by simp [h])
  simp [tdesD, slice, this]

/-- `encryptBlock` under a 16-byte key on an 8-byte block: only the key's acceptance is left to check. -/
theorem encryptBlock_of_sixteen {reject : Bytes → Bool} {key block : Bytes} (hk : key.length = 16)
    (hb : block.length = 8) :
    encryptBlock reject key block =
      if reject (tripleLength key) then .error .cipherInitError else .ok (tdeaEncrypt key block) := by
  unfold encryptBlock
  rw [expandKey_eq, if_pos (.inl hk)]
  show (do require _ _; require _ _; pure _ : Except ErrorKind Bytes) = _
  rw [tdesE_eq (tripleLength_length (.inl hk))]
  cases h : reject (tripleLength key) <;> simp [hb] <;> rfl

theorem variantKey_length {key v : Bytes} (hk : key.length = 16) (hv : v.length = 8) :
    (variantKey key v).length = 16 := by
  simp [variantKey, hk, hv]

/-- The XOR of the two halves with the variant is the XOR of the key with the variant twice (R148 (c)). -/
theorem variantKey_halves {key v : Bytes} (hk : key.length = 16) (hv : v.length = 8) :
    List.zipWith (· ^^^ ·) (slice key 0 8) v ++ List.zipWith (· ^^^ ·) (slice key 8 16) v = variantKey key v := by
  obtain ⟨l, r, rfl, hl, hr⟩ : ∃ l r : Bytes, key = l ++ r ∧ l.length = 8 ∧ r.length = 8 :=
    ⟨key.take 8, key.drop 8, by simp, by simp [hk], by simp [hk]⟩
  have h1 : slice (l ++ r) 0 8 = l := by simp [slice, ← hl]
  have h2 : slice (l ++ r) 8 16 = r := by simp [slice, ← hl]; omega
  rw [h1, h2, variantKey, List.zipWith_append (by omega)]

/-- Everything the fold can answer on operands of the lengths it is used with (R146). -/
theorem foldKey_eq {reject : Bytes → Bool} {key block v : Bytes} (hk : key.length = 16) (hb : block.length = 8)
    (hv : v.length = 8) :
    foldKey reject key block v =
      if reject (tripleLength key) || reject (tripleLength (variantKey key v)) then .error .cipherInitError
      else .ok (foldResult key block v) := by
  have hl : (slice key 0 8).length = 8 := by simp [slice, hk]
  have hr : (slice key 8 16).length = 8 := by simp [slice, hk]
  have hkey : slice key 0 8 ++ slice key 8 16 = key := by
    have : (key.drop 8).take 8 = key.drop 8 := List.take_of_length_le (by simp [hk])
    simp [slice, this]
  unfold foldKey
  simp only [hkey, xorBytes_eq, hl, hr, hv, if_true]
  rw [encryptBlock_of_sixteen hk hb]
  cases reject (tripleLength key)
  · show (do let b ← encryptBlock reject (_ ++ _) block; pure _ : Except ErrorKind Bytes) = _
    rw [variantKey_halves hk hv, encryptBlock_of_sixteen (variantKey_length hk hv) hb]
    cases reject (tripleLength (variantKey key v)) <;> rfl
  · rfl

theorem foldResult_length (key block v : Bytes) : (foldResult key block v).length = 16 := rfl

/-- Everything one session-key round can answer under a 16-byte key (R157). -/
theorem generateSessionKey_eq {reject : Bytes → Bool} {key ksn : Bytes} (hk : key.length = 16)
    (hn : ksn.length = 8 ∨ ksn.length = 10) :
    generateSessionKey reject key ksn =
      if reject (tripleLength key) || reject (tripleLength (variantKey key roundVariant)) then .error .cipherInitError
      else .ok (roundResult ksn key) := by
  unfold generateSessionKey
  rw [maskKsnForRound_eq, if_pos hn]
  simp only [hk, Config.derivKeyBytes, beq_self_eq_true]
  exact foldKey_eq hk (roundMasked_length (ksnWindow_length hn)) rfl

/-- One session-key round refuses a key of any length but 16 (R157). -/
theorem generateSessionKey_of_key_length {reject : Bytes → Bool} {key ksn : Bytes} (hk : key.length ≠ 16) :
    generateSessionKey reject key ksn = .error .invalidKeyLength := by
  unfold generateSessionKey
  simp only [Config.derivKeyBytes, beq_false_of_ne hk]
  rfl

/-- One session-key round refuses a KSN of any length but 8 and 10 (R157). -/
theorem generateSessionKey_of_ksn_length {reject : Bytes → Bool} {key ksn : Bytes} (hk : key.length = 16)
    (hn : ¬ (ksn.length = 8 ∨ ksn.length = 10)) :
    generateSessionKey reject key ksn = .error .invalidKsnLength := by
  unfold generateSessionKey
  rw [maskKsnForRound_eq, if_neg hn]
  simp only [hk, Config.derivKeyBytes, beq_self_eq_true]
  rfl

end Sys2Proof.Machine
end

