-- ==== Sys2Proof/Laws/Des.lean ====
section
/-! SUPPORT. Single DES in the terms proofs use (40_des_algorithm.md): the bits of a table's result, the rounds run
backwards, halves, and eight bytes as a number. -/

namespace Sys2Proof.Machine

theorem desBit_lt_two {n : Nat} (x : BitVec n) (k : Nat) : desBit x k < 2 := Nat.mod_lt _ (by decide)

/-- A string of bits read from a given number on. -/
theorem foldl_bits (l : List Nat) (g : Nat → Nat) (a : Nat) :
    l.foldl (fun acc k => 2 * acc + g k) a = 2 ^ l.length * a + l.foldl (fun acc k => 2 * acc + g k) 0 := by
  induction l generalizing a with
  | nil => simp
  | cons k l ih =>
    rw [List.foldl_cons, List.foldl_cons, ih, ih (2 * 0 + g k), List.length_cons, pow_succ]
    ring

theorem foldl_bits_lt (l : List Nat) (g : Nat → Nat) (hg : ∀ k, g k < 2) :
    l.foldl (fun acc k => 2 * acc + g k) 0 < 2 ^ l.length := by
  induction l with
  | nil => simp
  | cons k l ih =>
    rw [List.foldl_cons, foldl_bits, List.length_cons, pow_succ]
    have h : g k ≤ 1 := by have := hg k; omega
    nlinarith

/-- The first bit of the string is the most significant of the number. -/
theorem testBit_foldl_bits (l : List Nat) (g : Nat → Nat) (hg : ∀ k, g k < 2) (i : Nat) (hi : i < l.length) :
    (l.foldl (fun acc k => 2 * acc + g k) 0).testBit (l.length - 1 - i) = decide (g l[i] = 1) := by
  induction l generalizing i with
  | nil => simp at hi
  | cons k l ih =>
    rw [List.foldl_cons, foldl_bits]
    have hlt := foldl_bits_lt l g hg
    cases i with
    | zero =>
      simp only [List.length_cons, Nat.add_sub_cancel, Nat.sub_zero, List.getElem_cons_zero]
      rw [Nat.testBit_two_pow_mul_add _ hlt]
      have h : g k = 0 ∨ g k = 1 := by have := hg k; omega
      rcases h with h | h <;> simp [h]
    | succ j =>
      have hj : j < l.length := by simpa using hi
      have e : (k :: l).length - 1 - (j + 1) = l.length - 1 - j := by simp; omega
      rw [e, Nat.testBit_two_pow_mul_add _ hlt, if_pos (by omega), ih j hj]
      simp

/-- Applying a table, bit by bit: `Y[i] = X[T[i]]` (R92). -/
theorem getMsbD_applyTable {n m : Nat} (table : List Nat) (x : BitVec n) (hm : table.length = m) (i : Nat) (hi : i < m)
    (h1 : 1 ≤ table[i]) (h2 : table[i] ≤ n) :
    (applyTable m table x).getMsbD i = x.getMsbD (table[i] - 1) := by
  subst hm
  unfold applyTable
  simp only [BitVec.getMsbD, BitVec.getLsbD_ofNat]
  rw [testBit_foldl_bits table (desBit x) (desBit_lt_two x) i hi]
  have e : n - 1 - (table[i] - 1) = n - table[i] := by omega
  simp only [hi, show table.length - 1 - i < table.length by omega, show table[i] - 1 < n by omega, e, decide_true,
    Bool.true_and]
  simp [desBit, BitVec.getLsbD, Nat.testBit, Nat.shiftRight_eq_div_pow]
  rw [Bool.eq_iff_iff]
  simp

theorem feistelRounds_append (k1 k2 : List (BitVec 48)) (lr : BitVec 32 × BitVec 32) :
    feistelRounds (k1 ++ k2) lr = feistelRounds k2 (feistelRounds k1 lr) := by
  induction k1 generalizing lr with
  | nil => rfl
  | cons k rest ih => exact ih _

/-- The rounds under the reversed round keys, from the exchanged halves, undo the rounds (R101, R102). -/
theorem feistelRounds_reverse (keys : List (BitVec 48)) (l r : BitVec 32) :
    feistelRounds keys.reverse ((feistelRounds keys (l, r)).2, (feistelRounds keys (l, r)).1) = (r, l) := by
  induction keys generalizing l r with
  | nil => rfl
  | cons k rest ih =>
    simp only [List.reverse_cons, feistelRounds_append, feistelRounds]
    rw [ih]
    simp

@[simp] theorem leftHalf_joinHalves (l r : BitVec 32) : leftHalf (joinHalves l r) = l := by
  apply BitVec.eq_of_toNat_eq
  have := l.isLt
  have := r.isLt
  simp only [leftHalf, joinHalves, BitVec.toNat_ofNat, Nat.shiftRight_eq_div_pow]
  omega

@[simp] theorem rightHalf_joinHalves (l r : BitVec 32) : rightHalf (joinHalves l r) = r := by
  apply BitVec.eq_of_toNat_eq
  have := l.isLt
  have := r.isLt
  simp only [rightHalf, joinHalves, BitVec.toNat_ofNat]
  omega

@[simp] theorem joinHalves_halves (x : BitVec 64) : joinHalves (leftHalf x) (rightHalf x) = x := by
  apply BitVec.eq_of_toNat_eq
  have := x.isLt
  simp only [leftHalf, rightHalf, joinHalves, BitVec.toNat_ofNat, Nat.shiftRight_eq_div_pow]
  omega

/-- Eight bytes as a number, byte 0 the most significant (R91). -/
theorem toNat_toBlock (b : Bytes) :
    (toBlock b).toNat = (b.getD 0 0).toNat * 2 ^ 56 + (b.getD 1 0).toNat * 2 ^ 48 + (b.getD 2 0).toNat * 2 ^ 40 +
      (b.getD 3 0).toNat * 2 ^ 32 + (b.getD 4 0).toNat * 2 ^ 24 + (b.getD 5 0).toNat * 2 ^ 16 +
      (b.getD 6 0).toNat * 2 ^ 8 + (b.getD 7 0).toNat := by
  simp only [toBlock, BitVec.toNat_ofNat, byteAt, show List.range 8 = [0, 1, 2, 3, 4, 5, 6, 7] by decide, List.foldl]
  have h := fun i => (b.getD i 0).isLt
  have := h 0; have := h 1; have := h 2; have := h 3
  have := h 4; have := h 5; have := h 6; have := h 7
  omega

end Sys2Proof.Machine
end

