-- ==== Sys2Proof/Laws/KeyDerivation.lean ====
section
/-! SUPPORT. The key derivations in closed form (43_ipek.md, 44_session_key.md). -/

namespace Sys2Proof.Machine

/-- Everything `generateIPEK` can answer on operands of legal lengths (R145). -/
theorem generateIpek_eq {reject : Bytes → Bool} {bdk ksn : Bytes} (hk : bdk.length = 16) (hn : 8 ≤ ksn.length) :
    generateIpek reject bdk ksn =
      if reject (tripleLength bdk) || reject (tripleLength (variantKey bdk ipekVariant)) then .error .cipherInitError
      else .ok (foldResult bdk (ipekMasked ksn) ipekVariant) := by
  unfold generateIpek
  rw [maskKsnForIpek_eq, if_pos hn]
  simp only [hk, Config.derivKeyBytes, beq_self_eq_true]
  exact foldKey_eq hk (ipekMasked_length hn) rfl

@[simp] theorem setCounterBit_length (work : Bytes) (n : Nat) : (setCounterBit work n).length = work.length := by
  unfold setCounterBit orBit setByte
  split
  · simp
  · split <;> simp

theorem and_or_high : ∀ n : Nat, n < 21 → ∀ x : Byte, 15 < n → (x ||| (1 <<< (n - 16))) &&& 0xE0 = x &&& 0xE0 := by
  decide +kernel

/-- Setting a counter bit changes nothing the round mask keeps (R134, R156). -/
theorem roundMasked_setCounterBit {work : Bytes} (hl : work.length = 8) (n : Nat) (hn : n < 21) :
    roundMasked (setCounterBit work n) = roundMasked work := by
  obtain ⟨a, b, c, d, e, f, g, i, rfl⟩ := eq_bytes_of_length_eight hl
  unfold setCounterBit orBit setByte
  split
  · rfl
  · split
    · rfl
    · have h := and_or_high n hn f (by omega)
      simp only [roundMasked, byteAt, List.set, List.getD_cons_succ, List.getD_cons_zero, List.take]
      rw [h]

theorem ksnWindow_of_eight {k : Bytes} (h : k.length = 8) : ksnWindow k = k := by simp [ksnWindow, h]

theorem clearCounter_length (k : Bytes) : (clearCounter k).length = k.length := by simp [clearCounter, setByte]

/-- Clearing the counter changes nothing the round mask keeps (R134, R159). -/
theorem roundMasked_clearCounter {k : Bytes} (h : k.length = 8) : roundMasked (clearCounter k) = roundMasked k := by
  obtain ⟨a, b, c, d, e, f, g, i, rfl⟩ := eq_bytes_of_length_eight h
  simp [clearCounter, setByte, byteAt, roundMasked, BitVec.and_assoc]

/-- The loop of the chain: one round with the original KSN's mask for each one bit (R159, R162). -/
theorem chainRounds_eq {reject : Bytes → Bool} {ksn : Bytes} {c : BitVec 21} (ps : List Nat) (hps : ∀ p ∈ ps, p < 21)
    (work cur : Bytes) (hw : work.length = 8) (hm : roundMasked work = roundMasked (ksnWindow ksn))
    (hk : cur.length = 16) (hn : ksn.length = 8 ∨ ksn.length = 10) :
    chainRounds reject c ps work cur =
      (ps.filter fun n => c.getLsbD n).foldlM (fun key _ => generateSessionKey reject key ksn) cur := by
  induction ps generalizing work cur with
  | nil => rfl
  | cons p ps ih =>
    have hps' : ∀ q ∈ ps, q < 21 := fun q hq => hps q (List.mem_cons_of_mem _ hq)
    unfold chainRounds
    cases hb : c.getLsbD p
    · simp only [List.filter_cons, hb]
      exact ih hps' work cur hw hm hk
    · have hl : (setCounterBit work p).length = 8 := by simp [hw]
      have hr := roundMasked_setCounterBit hw p (hps p (List.mem_cons_self ..))
      simp only [List.filter_cons, hb, if_true, List.foldlM_cons]
      have e : generateSessionKey reject cur (setCounterBit work p) = generateSessionKey reject cur ksn := by
        rw [generateSessionKey_eq hk (.inl hl), generateSessionKey_eq hk hn, roundResult, roundResult,
          ksnWindow_of_eight hl, hr, hm]
      rw [e, generateSessionKey_eq hk hn]
      split
      · rfl
      · exact ih hps' _ _ hl (hr.trans hm) (foldResult_length ..)

/-- `deriveTransactionKey` refuses an IPEK of any length but 16 (R159). -/
theorem deriveTransactionKey_of_key_length {reject : Bytes → Bool} {ipek ksn : Bytes} (hk : ipek.length ≠ 16) :
    deriveTransactionKey reject ipek ksn = .error .invalidKeyLength := by
  unfold deriveTransactionKey
  simp only [Config.derivKeyBytes, beq_false_of_ne hk]
  rfl

/-- `deriveTransactionKey` refuses a KSN of any length but 8 and 10 (R159). -/
theorem deriveTransactionKey_of_ksn_length {reject : Bytes → Bool} {ipek ksn : Bytes} (hk : ipek.length = 16)
    (hn : ¬ (ksn.length = 8 ∨ ksn.length = 10)) :
    deriveTransactionKey reject ipek ksn = .error .invalidKsnLength := by
  unfold deriveTransactionKey
  rw [selectKsn8_eq, if_neg hn]
  simp only [hk, Config.derivKeyBytes, beq_self_eq_true]
  rfl

/-- `deriveTransactionKey` on operands of legal lengths, its loop as one round for each one bit of the counter. -/
theorem deriveTransactionKey_eq {reject : Bytes → Bool} {ipek ksn : Bytes} (hk : ipek.length = 16)
    (hn : ksn.length = 8 ∨ ksn.length = 10) :
    deriveTransactionKey reject ipek ksn = (do
      let cur ← ((List.range 21).filter fun n => (counter (ksnWindow ksn)).getLsbD n).foldlM
        (fun key _ => generateSessionKey reject key ksn) ipek
      generateSessionKey reject cur ksn) := by
  have hl := ksnWindow_length hn
  unfold deriveTransactionKey
  rw [selectKsn8_eq, if_pos hn]
  simp only [hk, Config.derivKeyBytes, beq_self_eq_true]
  show (do let cur ← chainRounds _ _ _ _ _; _ : Except ErrorKind Bytes) = _
  rw [chainRounds_eq (ksn := ksn) _ (by simp) _ _ (by rw [clearCounter_length, hl]) (roundMasked_clearCounter hl) hk hn]
  rfl

end Sys2Proof.Machine
end

