-- ==== Sys2Proof/Laws/State.lean ====
section
/-! SUPPORT. One lemma per field per update of the state, so that no later proof unfolds a record update. -/

namespace Sys2Proof.Machine

variable (s : State) (n m : BufIx) (b : Buffer) (c : BitVec 3) (r : Option Byte) (v : Bytes) (e : ErrorKind)

@[simp] theorem buf_setBuf_same : (s.setBuf n b).buf n = b := by
  simp [State.buf, State.setBuf]

theorem buf_setBuf_ne (h : m ≠ n) : (s.setBuf n b).buf m = s.buf m := by
  simp [State.buf, State.setBuf, Fin.val_ne_of_ne h.symm]

@[simp] theorem status_setBuf : (s.setBuf n b).status = s.status := rfl
@[simp] theorem rejectedKeys_setBuf : (s.setBuf n b).rejectedKeys = s.rejectedKeys := rfl
@[simp] theorem pending_setBuf : (s.setBuf n b).pending = s.pending := rfl
@[simp] theorem returned_setBuf : (s.setBuf n b).returned = s.returned := rfl

@[simp] theorem status_setData (j : Fin 24) (x : Byte) : (s.setData n j x).status = s.status := rfl
@[simp] theorem rejectedKeys_setData (j : Fin 24) (x : Byte) : (s.setData n j x).rejectedKeys = s.rejectedKeys := rfl
@[simp] theorem pending_setData (j : Fin 24) (x : Byte) : (s.setData n j x).pending = s.pending := rfl
@[simp] theorem returned_setData (j : Fin 24) (x : Byte) : (s.setData n j x).returned = s.returned := rfl
@[simp] theorem len_setData (j : Fin 24) (x : Byte) : ((s.setData n j x).buf n).len = (s.buf n).len := by
  simp [State.setData]

@[simp] theorem data_setData_same (j : Fin 24) (x : Byte) : ((s.setData n j x).buf n).data[j] = x := by
  simp [State.setData]

theorem data_setData_ne (j k : Fin 24) (x : Byte) (h : k ≠ j) :
    ((s.setData n j x).buf n).data[k] = (s.buf n).data[k] := by
  simp [State.setData, Fin.val_ne_of_ne h.symm]

theorem buf_setData_ne (j : Fin 24) (x : Byte) (h : m ≠ n) : (s.setData n j x).buf m = s.buf m :=
  buf_setBuf_ne _ _ _ _ h

/-- A `LEN` write of 0 to 24 is taken (20_memory.md R54). -/
theorem setLen_of_le (x : Byte) (h : x.toNat ≤ 24) :
    s.setLen n x = s.setBuf n { s.buf n with len := x.setWidth 5 } := if_pos h

/-- A `LEN` write above 24 is ignored (20_memory.md R54). -/
theorem setLen_of_gt (x : Byte) (h : 24 < x.toNat) : s.setLen n x = s := if_neg (by omega)

@[simp] theorem bufs_setErr : (s.setErr c).bufs = s.bufs := rfl
@[simp] theorem buf_setErr : (s.setErr c).buf n = s.buf n := rfl
@[simp] theorem status_setErr : (s.setErr c).status = c.setWidth 8 := rfl
@[simp] theorem rejectedKeys_setErr : (s.setErr c).rejectedKeys = s.rejectedKeys := rfl
@[simp] theorem pending_setErr : (s.setErr c).pending = s.pending := rfl
@[simp] theorem returned_setErr : (s.setErr c).returned = s.returned := rfl

@[simp] theorem bufs_answer : (s.answer r).bufs = s.bufs := rfl
@[simp] theorem buf_answer : (s.answer r).buf n = s.buf n := rfl
@[simp] theorem status_answer : (s.answer r).status = s.status := rfl
@[simp] theorem rejectedKeys_answer : (s.answer r).rejectedKeys = s.rejectedKeys := rfl
@[simp] theorem pending_answer : (s.answer r).pending = s.pending := rfl
@[simp] theorem returned_answer : (s.answer r).returned = s.returned ++ [r] := rfl

@[simp] theorem bufs_respond : s.respond.bufs = s.bufs := rfl
@[simp] theorem buf_respond : s.respond.buf n = s.buf n := rfl
@[simp] theorem status_respond : s.respond.status = s.status := rfl
@[simp] theorem rejectedKeys_respond : s.respond.rejectedKeys = s.rejectedKeys := rfl
@[simp] theorem pending_respond : s.respond.pending = s.pending := rfl
@[simp] theorem returned_respond : s.respond.returned = s.returned ++ [some s.statusValue] := rfl

@[simp] theorem buf_writeBuffer_same : (s.writeBuffer n v).buf n = Buffer.ofValue v := buf_setBuf_same ..
theorem buf_writeBuffer_ne (h : m ≠ n) : (s.writeBuffer n v).buf m = s.buf m := buf_setBuf_ne _ _ _ _ h
@[simp] theorem status_writeBuffer : (s.writeBuffer n v).status = s.status := rfl
@[simp] theorem rejectedKeys_writeBuffer : (s.writeBuffer n v).rejectedKeys = s.rejectedKeys := rfl
@[simp] theorem pending_writeBuffer : (s.writeBuffer n v).pending = s.pending := rfl
@[simp] theorem returned_writeBuffer : (s.writeBuffer n v).returned = s.returned := rfl

@[simp] theorem bufs_takeAction : s.takeAction.bufs = s.bufs := rfl
@[simp] theorem buf_takeAction : s.takeAction.buf n = s.buf n := rfl
@[simp] theorem status_takeAction : s.takeAction.status = s.status := rfl
@[simp] theorem rejectedKeys_takeAction : s.takeAction.rejectedKeys = s.rejectedKeys := rfl
@[simp] theorem pending_takeAction : s.takeAction.pending = s.pending.tail := rfl
@[simp] theorem returned_takeAction : s.takeAction.returned = s.returned := rfl

@[simp] theorem buf_resetEngine : (resetEngine s).buf n = Buffer.reset := by
  simp [State.buf, resetEngine, State.reset]

@[simp] theorem status_resetEngine : (resetEngine s).status = 0 := rfl
@[simp] theorem rejectedKeys_resetEngine : (resetEngine s).rejectedKeys = s.rejectedKeys := rfl
@[simp] theorem pending_resetEngine : (resetEngine s).pending = s.pending := rfl
@[simp] theorem returned_resetEngine : (resetEngine s).returned = s.returned := rfl

/-- What `STATUS` reads as right after its error code was set. -/
@[simp] theorem statusValue_setErr : (s.setErr c).statusValue = c.setWidth 8 := by
  revert c; unfold State.statusValue State.err State.setErr; simp only; decide

/-- The value of a buffer of the state has at most 24 bytes (00_scope.md R8). -/
theorem State.value_length_le : (s.value n).length ≤ 24 := by
  simp [State.value, Buffer.value]

/-- The value of a buffer is its first `LEN` bytes, at most 24 of them (10_state.md R22). -/
theorem Buffer.value_length : b.value.length = min b.len.toNat 24 := by
  simp [Buffer.value]

/-- The value a buffer holds once `v` was written to it is `v` (10_state.md R24). -/
theorem Buffer.value_ofValue (h : v.length ≤ 24) : (Buffer.ofValue v).value = v := by
  have hlen : (BitVec.ofNat 5 v.length).toNat = v.length := by
    simp only [BitVec.toNat_ofNat]; omega
  apply List.ext_getElem
  · simp [Buffer.value, Buffer.ofValue, hlen]; omega
  · intro i h1 h2
    simp [Buffer.value, Buffer.ofValue, byteAt, h2]

end Sys2Proof.Machine
end

