-- ==== Sys2Proof/Laws/Ops.lean ====
section
/-! SUPPORT. What the shared operations can do, said once each: how a command ends, where an address leads, and what a
port write changes. -/

namespace Sys2Proof.Machine

/-- Error delivery leaves exactly the state of 60_exceptions.md R190. -/
theorem raiseError_fails (e : ErrorKind) (s : State) : FailsWith s (raiseError e s) (e.code.setWidth 8) := by
  simp [FailsWith, raiseError]

/-- Completion leaves exactly the state of 60_exceptions.md R191 and 10_state.md R24. -/
theorem complete_completes (rd : BufIx) (v : Bytes) (s : State) (h : v.length ≤ 24) :
    CompletesWith s (complete rd v s) rd v := by
  refine ⟨?_, ?_, ?_, rfl, ?_, rfl, rfl⟩
  · simp [complete, Buffer.ofValue]; omega
  · intro j
    simp only [complete, buf_respond, buf_setErr, buf_writeBuffer_same, Buffer.ofValue, byteAt]
    split
    · simp
    · simp [List.getElem?_eq_none (Nat.le_of_not_lt ‹_›)]
  · intro n hn
    simp [complete, buf_writeBuffer_ne _ _ _ _ hn]
  · simp only [complete, returned_respond, returned_setErr, returned_writeBuffer, statusValue_setErr]; rfl

/-- A command whose function gave a value completes with it. -/
theorem finish_ok {rd : BufIx} {v : Bytes} {s : State} (h : v.length ≤ 24) :
    ∃ t, finish rd (.ok v) s = .next t ∧ CompletesWith s t rd v :=
  ⟨_, rfl, complete_completes rd v s h⟩

/-- A command whose function gave an error fails with its code. -/
theorem finish_error {rd : BufIx} {e : ErrorKind} {s : State} :
    ∃ t, finish rd (.error e) s = .next t ∧ FailsWith s t (e.code.setWidth 8) :=
  ⟨_, rfl, raiseError_fails e s⟩

/-- A legal state has a legal status wherever a command ends. -/
theorem code_le_six (e : ErrorKind) : (e.code.setWidth 8 : Byte).toNat ≤ 6 := by
  cases e <;> decide

/-- Every address leads to a data byte, a length, `STATUS` or nowhere (20_memory.md R51). -/
theorem locate_windowAddr_data (n : BufIx) (j : Fin 24) : locate (windowAddr n j.val) = .data n j := by
  revert n j; decide

theorem locate_lenAddr (n : BufIx) : locate (lenAddr n) = .len n := by
  revert n; decide

theorem locate_statusAddr : locate statusAddr = .status := by decide

/-- Only the address of a data byte leads to it. -/
theorem eq_of_locate_data {a : PortAddr} {n : BufIx} {j : Fin 24} (h : locate a = .data n j) :
    a = windowAddr n j.val := by
  unfold locate at h
  split at h
  · split at h
    · injection h with h1 h2
      subst h1 h2
      apply BitVec.eq_of_toNat_eq
      simp only [windowAddr, BitVec.toNat_ofNat]
      omega
    · split at h <;> cases h
  · split at h <;> cases h

/-- Only the address of a length leads to it. -/
theorem eq_of_locate_len {a : PortAddr} {n : BufIx} (h : locate a = .len n) : a = lenAddr n := by
  unfold locate at h
  split at h
  · split at h
    · cases h
    · split at h
      · injection h with h1
        subst h1
        apply BitVec.eq_of_toNat_eq
        simp only [lenAddr, windowAddr, BitVec.toNat_ofNat]
        omega
      · cases h
  · split at h <;> cases h

/-- A port write either replaces the one buffer whose window it hits or changes nothing (20_memory.md R53). -/
theorem memWrite_cases (a : PortAddr) (v : Byte) (s : State) :
    (∃ n j, locate a = .data n j ∧ memWrite a v s = s.setData n j v) ∨
    (∃ n, locate a = .len n ∧ memWrite a v s = s.setLen n v) ∨
    ((locate a = .status ∨ locate a = .reserved) ∧ memWrite a v s = s) := by
  unfold memWrite
  cases h : locate a with
  | data n j => exact .inl ⟨n, j, rfl, rfl⟩
  | len n => exact .inr (.inl ⟨n, rfl, rfl⟩)
  | status => exact .inr (.inr ⟨.inl rfl, rfl⟩)
  | reserved => exact .inr (.inr ⟨.inr rfl, rfl⟩)

/-- A port write leaves everything but the buffers alone. -/
theorem memWrite_keeps (a : PortAddr) (v : Byte) (s : State) :
    (memWrite a v s).status = s.status ∧ (memWrite a v s).rejectedKeys = s.rejectedKeys ∧
    (memWrite a v s).pending = s.pending ∧ (memWrite a v s).returned = s.returned := by
  rcases memWrite_cases a v s with ⟨n, j, -, h⟩ | ⟨n, -, h⟩ | ⟨-, h⟩ <;> rw [h]
  · exact ⟨rfl, rfl, rfl, rfl⟩
  · unfold State.setLen; split <;> exact ⟨rfl, rfl, rfl, rfl⟩
  · exact ⟨rfl, rfl, rfl, rfl⟩

end Sys2Proof.Machine
end

