-- ==== Sys2Proof/Laws/PerInstr.lean ====
section
/-! SUPPORT. Laws said of every command, one lemma per constructor. -/

namespace Sys2Proof.Laws

/-- The word of a command has the `match` of its row under the row's `mask` (30_encoding.md R73). -/
def EncodedInRow.Statement (i : Instr) : Prop :=
  encode i &&& rowMask i = rowMatch i

theorem EncodedInRow.kexp (rd rs1 : BufIx) : EncodedInRow.Statement (.kexp rd rs1) := by
  revert rd rs1; unfold EncodedInRow.Statement; decide +kernel

theorem EncodedInRow.tenc (rd rs1 rs2 : BufIx) : EncodedInRow.Statement (.tenc rd rs1 rs2) := by
  revert rd rs1 rs2; unfold EncodedInRow.Statement; decide +kernel

theorem EncodedInRow.tdec (rd rs1 rs2 : BufIx) : EncodedInRow.Statement (.tdec rd rs1 rs2) := by
  revert rd rs1 rs2; unfold EncodedInRow.Statement; decide +kernel

theorem EncodedInRow.xor (rd rs1 rs2 : BufIx) : EncodedInRow.Statement (.xor rd rs1 rs2) := by
  revert rd rs1 rs2; unfold EncodedInRow.Statement; decide +kernel

theorem EncodedInRow.mski (rd rs1 : BufIx) : EncodedInRow.Statement (.mski rd rs1) := by
  revert rd rs1; unfold EncodedInRow.Statement; decide +kernel

theorem EncodedInRow.mskr (rd rs1 : BufIx) : EncodedInRow.Statement (.mskr rd rs1) := by
  revert rd rs1; unfold EncodedInRow.Statement; decide +kernel

theorem EncodedInRow.ipek (rd rs1 rs2 : BufIx) : EncodedInRow.Statement (.ipek rd rs1 rs2) := by
  revert rd rs1 rs2; unfold EncodedInRow.Statement; decide +kernel

theorem EncodedInRow.skr (rd rs1 rs2 : BufIx) : EncodedInRow.Statement (.skr rd rs1 rs2) := by
  revert rd rs1 rs2; unfold EncodedInRow.Statement; decide +kernel

theorem EncodedInRow.dtk (rd rs1 rs2 : BufIx) : EncodedInRow.Statement (.dtk rd rs1 rs2) := by
  revert rd rs1 rs2; unfold EncodedInRow.Statement; decide +kernel

end Sys2Proof.Laws
end

