-- ==== Sys2Proof/Laws/Step.lean ====
section
/-! SUPPORT. What a command and a step can do, said once. -/

namespace Sys2Proof.Machine

/-- The function each command computes, of the parameter `RejectKey` and the buffers' values only (10_state.md R31). -/
def commandFunction (i : Instr) (reject : Bytes → Bool) (value : BufIx → Bytes) : Except ErrorKind Bytes :=
  match i with
  | .kexp _ a => expandKey (value a)
  | .tenc _ a b => encryptBlock reject (value a) (value b)
  | .tdec _ a b => decryptBlock reject (value a) (value b)
  | .xor _ a b => xorBytes (value a) (value b)
  | .mski _ a => maskKsnForIpek (value a)
  | .mskr _ a => maskKsnForRound (value a)
  | .ipek _ a b => generateIpek reject (value a) (value b)
  | .skr _ a b => generateSessionKey reject (value a) (value b)
  | .dtk _ a b => deriveTransactionKey reject (value a) (value b)

/-- Every command ends by writing its destination with its function's value or by delivering its function's error. -/
theorem exec_eq_finish (i : Instr) (s : State) :
    exec i s = finish i.dest (commandFunction i s.rejectKey s.value) s := by
  cases i <;> rfl

theorem decryptBlock_length {reject : Bytes → Bool} {key block v : Bytes}
    (h : decryptBlock reject key block = .ok v) : v.length = 8 := by
  unfold decryptBlock at h
  cases hk : expandKey key with
  | error e => rw [hk] at h; cases h
  | ok k =>
    rw [hk] at h
    cases hb : (block.length == Config.blockBytes) with
    | false => rw [hb] at h; cases h
    | true =>
      rw [hb] at h
      change (do require (!reject k) _; pure _ : Except ErrorKind Bytes) = _ at h
      cases hr : reject k with
      | true => rw [hr] at h; cases h
      | false => rw [hr] at h; injection h with h; rw [← h]; rfl

theorem encryptBlock_length {reject : Bytes → Bool} {key block v : Bytes}
    (h : encryptBlock reject key block = .ok v) : v.length = 8 := by
  unfold encryptBlock at h
  cases hk : expandKey key with
  | error e => rw [hk] at h; cases h
  | ok k =>
    rw [hk] at h
    cases hb : (block.length == Config.blockBytes) with
    | false => rw [hb] at h; cases h
    | true =>
      rw [hb] at h
      change (do require (!reject k) _; pure _ : Except ErrorKind Bytes) = _ at h
      cases hr : reject k with
      | true => rw [hr] at h; cases h
      | false => rw [hr] at h; injection h with h; rw [← h]; rfl

theorem generateSessionKey_length {reject : Bytes → Bool} {key ksn v : Bytes}
    (h : generateSessionKey reject key ksn = .ok v) : v.length = 16 := by
  by_cases hk : key.length = 16
  · by_cases hn : ksn.length = 8 ∨ ksn.length = 10
    · rw [generateSessionKey_eq hk hn] at h
      split at h
      · cases h
      · injection h with h; rw [← h]; rfl
    · rw [generateSessionKey_of_ksn_length hk hn] at h; cases h
  · rw [generateSessionKey_of_key_length hk] at h; cases h

theorem deriveTransactionKey_length {reject : Bytes → Bool} {ipek ksn v : Bytes}
    (h : deriveTransactionKey reject ipek ksn = .ok v) : v.length = 16 := by
  by_cases hk : ipek.length = 16
  · by_cases hn : ksn.length = 8 ∨ ksn.length = 10
    · rw [deriveTransactionKey_eq hk hn] at h
      cases hc : ((List.range 21).filter fun n => (counter (ksnWindow ksn)).getLsbD n).foldlM
          (fun key _ => generateSessionKey reject key ksn) ipek with
      | error e => rw [hc] at h; cases h
      | ok cur => rw [hc] at h; exact generateSessionKey_length h
    · rw [deriveTransactionKey_of_ksn_length hk hn] at h; cases h
  · rw [deriveTransactionKey_of_key_length hk] at h; cases h

/-- A command's result fits in a buffer (10_state.md R23). -/
theorem commandFunction_length {i : Instr} {s : State} {v : Bytes}
    (h : commandFunction i s.rejectKey s.value = .ok v) : v.length ≤ 24 := by
  cases i with
  | kexp rd a =>
    change expandKey _ = _ at h
    rw [expandKey_eq] at h
    split at h
    · injection h with h; rw [← h, tripleLength_length ‹_›]
    · cases h
  | tenc rd a b => rw [encryptBlock_length h]; omega
  | tdec rd a b => rw [decryptBlock_length h]; omega
  | xor rd a b =>
    change xorBytes _ _ = _ at h
    rw [xorBytes_eq] at h
    have := s.value_length_le a
    split at h
    · injection h with h; rw [← h, List.length_zipWith]; omega
    · cases h
  | mski rd a =>
    change maskKsnForIpek _ = _ at h
    rw [maskKsnForIpek_eq] at h
    split at h
    · injection h with h; rw [← h, ipekMasked_length ‹_›]; omega
    · cases h
  | mskr rd a =>
    change maskKsnForRound _ = _ at h
    rw [maskKsnForRound_eq] at h
    split at h
    · injection h with h; rw [← h, roundMasked_length (ksnWindow_length ‹_›)]; omega
    · cases h
  | ipek rd a b =>
    change generateIpek _ (s.value a) (s.value b) = _ at h
    by_cases hk : (s.value a).length = 16
    · by_cases hn : 8 ≤ (s.value b).length
      · rw [generateIpek_eq hk hn] at h
        split at h
        · cases h
        · injection h with h; rw [← h, foldResult_length]; omega
      · unfold generateIpek at h
        rw [maskKsnForIpek_eq, if_neg hn] at h
        simp only [hk, Config.derivKeyBytes, beq_self_eq_true] at h
        cases h
    · unfold generateIpek at h
      simp only [Config.derivKeyBytes, beq_false_of_ne hk] at h
      cases h
  | skr rd a b => rw [generateSessionKey_length h]; omega
  | dtk rd a b => rw [deriveTransactionKey_length h]; omega

/-- What an `H-ISSUE` can do: complete its command, or deliver one error. -/
theorem issue_cases (w : CommandWord) (s : State) :
    (∃ i v, decode w = .ok i ∧ commandFunction i s.rejectKey s.value = .ok v ∧
      issue w s = .next (complete i.dest v s)) ∨
    (∃ i e, decode w = .ok i ∧ commandFunction i s.rejectKey s.value = .error e ∧ issue w s = .next (raiseError e s)) ∨
    (∃ x, decode w = .error x ∧ issue w s = .next (raiseError .illegalCommand s)) := by
  unfold issue
  cases hd : decode w with
  | error x => exact .inr (.inr ⟨x, rfl, rfl⟩)
  | ok i =>
    simp only [exec_eq_finish]
    cases hf : commandFunction i s.rejectKey s.value with
    | ok v => exact .inl ⟨i, v, rfl, hf, rfl⟩
    | error e => exact .inr (.inl ⟨i, e, rfl, hf, rfl⟩)

/-- What one host action can do: it goes on, leaves the pending actions and the configuration alone, and records one
returned value, or none for a reset. -/
theorem perform_goes (a : HostAction) (s : State) :
    ∃ t, perform a s = .next t ∧ t.pending = s.pending ∧ t.rejectedKeys = s.rejectedKeys ∧
      (a = .reset ∧ t.returned = s.returned ∨ a ≠ .reset ∧ ∃ r, t.returned = s.returned ++ [r]) := by
  cases a with
  | write addr v =>
    obtain ⟨-, h2, h3, h4⟩ := memWrite_keeps addr v s
    exact ⟨_, rfl, h3, h2, .inr ⟨by simp, none, by simp [h4]⟩⟩
  | read addr => exact ⟨_, rfl, rfl, rfl, .inr ⟨by simp, _, rfl⟩⟩
  | reset => exact ⟨_, rfl, rfl, rfl, .inl ⟨rfl, rfl⟩⟩
  | issueCutByReset w => exact ⟨_, rfl, rfl, rfl, .inr ⟨by simp, _, rfl⟩⟩
  | issue w =>
    rcases issue_cases w s with ⟨i, v, -, -, h⟩ | ⟨i, e, -, -, h⟩ | ⟨x, -, h⟩
    · exact ⟨_, h, rfl, rfl, .inr ⟨by simp, _, returned_respond _⟩⟩
    · exact ⟨_, h, rfl, rfl, .inr ⟨by simp, _, returned_respond _⟩⟩
    · exact ⟨_, h, rfl, rfl, .inr ⟨by simp, _, returned_respond _⟩⟩

/-- A step with an action pending performs it. -/
theorem step_of_pending {s : State} {a : HostAction} {rest : List HostAction} (h : s.pending = a :: rest) :
    step s = perform a { s with pending := rest } := by
  simp [step, h, State.takeAction]

/-- A run of any machine, one step at a time. -/
theorem run_succ_of_step (M : Host.Core) (k : Nat) {s t : M.State} (h : M.step s = .next t) :
    M.run (k + 1) s = M.run k t := by
  rw [Host.Core.run, h]

/-- A run of this machine, one step at a time. -/
theorem run_of_step {s t : State} (k : Nat) (h : step s = .next t) :
    Host.Core.run Sys2Proof.core (k + 1) s = Host.Core.run Sys2Proof.core k t :=
  run_succ_of_step Sys2Proof.core k h

theorem run_zero (s : State) : Host.Core.run Sys2Proof.core 0 s = .next s := rfl

end Sys2Proof.Machine
end

