-- ==== Sys2Proof/Tests/Slice0.lean ====
section
/-! SUPPORT. Tests of the model on the spec's own words and vectors (95_test_vectors.md), and for each statement with
hypotheses a witness that meets them, clause by clause. -/

namespace Sys2Proof.Tests
open Sys2Proof Sys2Proof.Machine

/-! ### Helpers -/

/-- The `n` bytes of a number as it is written in hex, byte 0 first. -/
def hex (n v : Nat) : Bytes := (List.range n).map fun i => BitVec.ofNat 8 (v >>> (8 * (n - 1 - i)))

/-- `n` bytes `0, 1, 2, ...`. -/
def ramp (n : Nat) : Bytes := (List.range n).map fun i => BitVec.ofNat 8 i

/-- From reset, with these values loaded, the command responds `resp` and leaves `v` in its destination. -/
def answers (i : Instr) (l : List (BufIx × Bytes)) (resp : Byte) (v : Bytes) : Bool :=
  match exec i (State.holding l) with
  | .next t => t.returned == [some resp] && t.status == resp && t.value i.dest == v
  | _ => false

/-- From reset, the host's actions performed in order return these bytes. -/
def transacts (acts : List HostAction) (results : List (Option Byte)) : Bool :=
  match Host.Core.run Sys2Proof.core acts.length { State.reset with pending := acts } with
  | .next t => t.returned == results && t.pending == []
  | _ => false

/-- Values of `a` and `b` bytes in `b1` and `b2`. -/
def loaded (a b : Nat) : State := State.holding [(1, ramp a), (2, ramp b)]

/-- `s` under a `RejectKey` that rejects exactly this key. -/
def rejecting (s : State) (k : Bytes) : State := { s with rejectedKeys := [k] }

/-! ### Well-formedness: a word each check refuses (95_test_vectors.md 2.1) -/

theorem test_wf_opcode_zero : opAssigned 0x0FF8 = false ∧ wordWellFormed 0x0FF8 = false := by decide
theorem test_wf_opcode_ten : opAssigned 0xA000 = false ∧ wordWellFormed 0xA000 = false := by decide
theorem test_wf_zero_field : zeroClear 0x2651 = false ∧ wordWellFormed 0x2651 = false := by decide
theorem test_wf_zero2_field : zero2Clear 0x1448 = false ∧ wordWellFormed 0x1448 = false := by decide
theorem test_wf_accepts : wordWellFormed 0x1000 = true ∧ wordWellFormed 0x9FF8 = true := by decide

/-! ### Decoding and encoding: the words of 95_test_vectors.md 2.1 and section 3, bit by bit -/

theorem test_decode_kexp : decode 0b0001_010_001_000_000 = .ok (.kexp 2 1) := by decide
theorem test_decode_tenc : decode 0b0010_011_001_010_000 = .ok (.tenc 3 1 2) := by decide
theorem test_decode_tdec : decode 0b0011_011_001_010_000 = .ok (.tdec 3 1 2) := by decide
theorem test_decode_xor : decode 0b0100_011_001_010_000 = .ok (.xor 3 1 2) := by decide
theorem test_decode_mski : decode 0b0101_100_001_000_000 = .ok (.mski 4 1) := by decide
theorem test_decode_mskr : decode 0b0110_101_001_000_000 = .ok (.mskr 5 1) := by decide
theorem test_decode_ipek : decode 0b0111_010_000_001_000 = .ok (.ipek 2 0 1) := by decide
theorem test_decode_skr : decode 0b1000_011_010_001_000 = .ok (.skr 3 2 1) := by decide
theorem test_decode_dtk : decode 0b1001_011_010_001_000 = .ok (.dtk 3 2 1) := by decide
theorem test_decode_encd : decode 0x2AE0 = .ok (expandEncd 5 3 4) := by decide
theorem test_decode_decd : decode 0x3CE8 = .ok (expandDecd 6 3 5) := by decide

theorem test_encode :
    encode (.kexp 1 1) = 0x1240 ∧ encode (.tenc 5 4 2) = 0x2B10 ∧ encode (.tdec 6 3 5) = 0x3CE8 ∧
    encode (.xor 4 0 7) = 0x4838 ∧ encode (.mski 3 2) = 0x5680 ∧ encode (.mskr 3 1) = 0x6640 ∧
    encode (.ipek 6 0 1) = 0x7C08 ∧ encode (.skr 4 4 3) = 0x8918 ∧ encode (.dtk 5 0 1) = 0x9A08 := by decide

theorem test_decode_rejects_by_name :
    decode 0xFFF8 = .error .unassignedOpcode ∧ decode 0x0000 = .error .unassignedOpcode ∧
    decode 0x1447 = .error .zeroFieldSet ∧ decode 0x5878 = .error .zero2FieldSet ∧
    decode 0x6A48 = .error .zero2FieldSet := by decide

theorem test_decodeTableWord :
    decodeTableWord 16 0x9688 = some (.dtk 3 2 1) ∧ decodeTableWord 16 0xA000 = none ∧
    decodeTableWord 32 0x19688 = none := by decide

/-- The word placed for the next step is the word that step runs, and nothing else is changed. -/
theorem test_withFetchWord_runs :
    (match step (State.reset.withFetchWord 16 0x5440) with
      | .next t => t.returned == [some 5] && t.pending == []
      | _ => false) = true := by decide

theorem test_assembly : assemblyText (.tenc 3 1 2) = "TENC b3, b1, b2" ∧ assemblyText (.kexp 2 1) = "KEXP b2, b1" := by
  decide +kernel

/-! ### The commands (95_test_vectors.md 2.2 to 2.8) -/

theorem test_kexp_in_place :
    answers (.kexp 1 1) [(1, hex 16 0x0123456789ABCDEFFEDCBA9876543210)] 0
      (hex 24 0x0123456789ABCDEFFEDCBA98765432100123456789ABCDEF) = true := by decide +kernel

theorem test_kexp_fifteen : answers (.kexp 2 1) [(1, ramp 15), (2, [7])] 1 [7] = true := by decide +kernel

/-- Row 6, a key with three different parts. -/
theorem test_tenc_triple_length :
    answers (.tenc 3 1 2) [(1, hex 24 0x0123456789ABCDEF23456789ABCDEF01456789ABCDEF0123),
      (2, hex 8 0x5468652071756663)] 0 (hex 8 0xA826FD8CE53B855F) = true := by decide +kernel

theorem test_tenc_block_nine : answers (.tenc 3 1 2) [(1, ramp 16), (2, ramp 9)] 2 [] = true := by decide +kernel

/-- Row 6. -/
theorem test_tdec_triple_length :
    answers (.tdec 3 1 2) [(1, hex 24 0x0123456789ABCDEF23456789ABCDEF01456789ABCDEF0123),
      (2, hex 8 0x5468652071756663)] 0 (hex 8 0x6725870A7B3A3BAE) = true := by decide +kernel

/-- Row 1, into the block's own buffer. -/
theorem test_tdec_in_place :
    answers (.tdec 2 1 2) [(1, hex 16 0x0123456789ABCDEFFEDCBA9876543210), (2, hex 8 0xFFFF9876543210E0)] 0
      (hex 8 0x4C71B25058B51975) = true := by decide +kernel

theorem test_xor : answers (.xor 1 1 2) [(1, hex 8 0xFEDCBA9876543210), (2, hex 8 0xC0C0C0C000000000)] 0
    (hex 8 0x3E1C7A5876543210) = true := by decide +kernel

theorem test_xor_lengths : answers (.xor 3 1 2) [(1, hex 2 0x0123), (2, hex 3 0x012345)] 3 [] = true := by
  decide +kernel

theorem test_mski_long : answers (.mski 4 1) [(1, hex 24 0x00112233445566778899AABBCCDDEEFF0011223344556677)] 0
    (hex 8 0x0011223344556660) = true := by decide +kernel

theorem test_mski_short : answers (.mski 4 1) [(1, hex 7 0xFFFF9876543210)] 5 [] = true := by decide +kernel

theorem test_mskr_device_bit : answers (.mskr 5 1) [(1, hex 8 0x0000000000200000)] 0 (hex 8 0x0000000000200000) = true := by
  decide +kernel

theorem test_mskr_ten : answers (.mskr 5 1) [(1, hex 10 0xFFFF9876543210FFFFFF)] 0 (hex 8 0x9876543210E00000) = true := by
  decide +kernel

theorem test_ipek_device_bit :
    answers (.ipek 3 1 2) [(1, hex 16 0x0123456789ABCDEFFEDCBA9876543210), (2, hex 10 0xFFFF9876543210C00001)] 0
      (hex 16 0xEE98016E749377B3560844ADAD6C555B) = true := by decide +kernel

/-- The BDK used as its own 16-byte KSN. -/
theorem test_ipek_same_source :
    answers (.ipek 3 1 1) [(1, hex 16 0x0123456789ABCDEFFEDCBA9876543210)] 0
      (hex 16 0x8FADC73C286EA1D49B02F011575ECB77) = true := by decide +kernel

theorem test_skr_in_place :
    answers (.skr 1 1 2) [(1, hex 16 0x6AC292FAA1315B4D858AB3A3D7D5933A), (2, hex 10 0x00009876543210E00001)] 0
      (hex 16 0x7EC20B6363CEC165D70C25803138581D) = true := by decide +kernel

theorem test_skr_key_before_ksn : answers (.skr 3 1 2) [(1, ramp 8), (2, ramp 2)] 1 [] = true := by decide +kernel

/-- Counter `0x100000`: the highest counter bit, two rounds. -/
theorem test_dtk_highest_bit :
    answers (.dtk 3 1 2) [(1, hex 16 0x6AC292FAA1315B4D858AB3A3D7D5933A), (2, hex 10 0xFFFF9876543210F00000)] 0
      (hex 16 0xBC414A31393FFA13820EF3FB869B12DB) = true := by decide +kernel

theorem test_dtk_ksn_nine : answers (.dtk 3 1 2) [(1, ramp 16), (2, ramp 9)] 5 [] = true := by decide +kernel

/-! ### The port (95_test_vectors.md 2.9) and the directives -/

theorem test_port :
    transacts [.read 0x018, .write 0x040 0xAB, .read 0x040, .write 0x058 0x18, .read 0x058, .write 0x058 0x19,
        .read 0x058, .write 0x058 0xFF, .read 0x058, .write 0x058 0x00, .read 0x040, .write 0x01F 0x55, .read 0x01F,
        .write 0x100 0xFF, .read 0x100, .write 0x150 0x12, .read 0x150, .read 0x1FF, .read 0x0F8]
      [some 0, none, some 0xAB, none, some 0x18, none, some 0x18, none, some 0x18, none, some 0xAB, none, some 0, none,
        some 0, none, some 0, some 0, some 0] = true := by decide +kernel

theorem test_status_read_after_error :
    transacts [.issue 0xFFFF, .read 0x100, .issue 0x4000, .read 0x100] [some 6, some 6, some 0, some 0] = true := by
  decide +kernel

theorem test_load_then_command :
    transacts ((loadActions 2 (hex 7 0xFFFF9876543210)).getD [] ++ [.write 0x058 0x08, .issue 0x5680] ++
        readLengthActions 3 ++ readByteActions 3 8)
      (List.replicate 9 none ++ [some 0, some 8] ++ (hex 8 0xFFFF987654321000).map some) = true := by decide +kernel

theorem test_load_too_long : loadActions 0 (ramp 25) = none := by decide

/-! ### Single DES (40_des_algorithm.md R104; 95_test_vectors.md 2.3) -/

theorem test_des : desE (hex 8 0x3000000000000000) (hex 8 0x1000000000000001) = hex 8 0x958E6E627A05557B := by
  decide +kernel

/-! ### Witnesses: words, steps and transactions -/

theorem test_witness_DecodeOfEncodeIsTheCommand : (Instr.dtk 7 7 7).wellFormed = true := by decide

theorem test_witness_EncodeOfDecodeIsTheWord : decode 0x9FF8 = .ok (.dtk 7 7 7) ∧ decode 0x1000 = .ok (.kexp 0 0) := by
  decide

theorem test_witness_MaskAndMatchDecideTheCommand :
    (0x6A40#16 &&& 0xF03F#16 = 0x6000#16 ∧ (5 : BufIx).val = 0x6A40 / 512 % 8 ∧ (1 : BufIx).val = 0x6A40 / 64 % 8) ∧
    (0x9FF8#16 &&& 0xF007#16 = 0x9000#16 ∧ (7 : BufIx).val = 0x9FF8 / 512 % 8 ∧ (7 : BufIx).val = 0x9FF8 / 8 % 8) := by
  decide

/-- Each of the three grounds at the edge of its range. -/
theorem test_witness_IllegalWordRaisesIllegalCommand :
    (0x0FF8 / 4096 = 0 ∧ ∀ i, decode 0x0FF8 ≠ .ok i) ∧ (10 ≤ 0xA000 / 4096 ∧ ∀ i, decode 0xA000 ≠ .ok i) ∧
    (0x9001 % 8 ≠ 0 ∧ ∀ i, decode 0x9001 ≠ .ok i) ∧ (0x6008 / 8 % 8 ≠ 0 ∧ ∀ i, decode 0x6008 ≠ .ok i) ∧
    decode 0x7008 = .ok (.ipek 0 0 1) := by
  refine ⟨⟨rfl, ?_⟩, ⟨by decide, ?_⟩, ⟨by decide, ?_⟩, ⟨by decide, ?_⟩, by decide⟩ <;> intro i h <;> cases h

theorem test_witness_StepRunsTheDecodedCommand :
    ({ State.reset with pending := [.issue 0x4000] } : State).pending = .issue 0x4000 :: [] ∧
    decode 0x4000 = .ok (.xor 0 0 0) ∧ (Instr.xor 0 0 0).wellFormed = true := by decide

theorem test_witness_ReadAndWriteTransactionsStep :
    State.reset.pending = [] ∧ ({ State.reset with pending := [.read 0x100] } : State).pending = .read 0x100 :: [] ∧
    ({ State.reset with pending := [.write 0 1] } : State).pending = .write 0 1 :: [] := by decide

theorem test_witness_ResetActionClearsTheEngine :
    ({ loaded 16 8 with pending := [.reset] } : State).pending = .reset :: ([] : List HostAction) := rfl

theorem test_witness_ResetAbandonsTheCommand :
    ({ loaded 16 8 with pending := [.issueCutByReset 0x2650] } : State).pending = .issueCutByReset 0x2650 :: [] := rfl

/-! ### Witnesses: the operand space -/

theorem test_witness_MemReadFollowsTheMap :
    State.reset.Inv ∧ ((0x0F9 : PortAddr).toNat < 256 ∧ 25 ≤ (0x0F9 : PortAddr).toNat % 32) ∧
    ((0x0FF : PortAddr).toNat < 256 ∧ 25 ≤ (0x0FF : PortAddr).toNat % 32) ∧ 257 ≤ (0x101 : PortAddr).toNat ∧
    ({ State.reset with pending := [.read 0x1FF] } : State).pending = .read 0x1FF :: [] := by decide

theorem test_witness_MemWriteFollowsTheMap :
    (24#8).toNat ≤ 24 ∧ 25 ≤ (25#8).toNat ∧ ((0x019 : PortAddr).toNat < 256 ∧ 25 ≤ (0x019 : PortAddr).toNat % 32) ∧
    257 ≤ (0x1FF : PortAddr).toNat := by decide

theorem test_witness_LenWriteIsLegalised :
    (24#8).toNat ≤ 24 ∧ 25 ≤ (25#8).toNat ∧ ∀ m : BufIx, (State.reset.buf m).len.toNat ≤ 24 := by decide

theorem test_witness_LoadDirectiveSetsTheValue :
    (∃ acts, loadActions 7 (ramp 24) = some acts ∧ ({ State.reset with pending := acts } : State).pending = acts ++ []) ∧
    ∃ acts, loadActions 0 [] = some acts ∧ ({ State.reset with pending := acts } : State).pending = acts ++ [] :=
  ⟨⟨_, rfl, (List.append_nil _).symm⟩, ⟨_, rfl, (List.append_nil _).symm⟩⟩

/-! ### Witnesses: how commands end -/

theorem test_witness_CommandsWriteOnlyTheDestination :
    (∃ t, exec (.mski 4 1) (loaded 8 0) = .next t ∧ t.status = 0) ∧
    ∃ t, exec (.mski 4 1) (loaded 7 0) = .next t ∧ t.status ≠ 0 :=
  ⟨⟨_, rfl, by decide +kernel⟩, ⟨_, rfl, by decide +kernel⟩⟩

/-- Two states that differ in `STATUS`, in a buffer that is no source, and in a byte beyond `LEN`. -/
theorem test_witness_CommandsArePure :
    let s1 := loaded 16 8
    let s2 := { (s1.setData 1 20 9).writeBuffer 5 [1] with status := 3 }
    s1.rejectedKeys = s2.rejectedKeys ∧ decode 0x2650 = .ok (.tenc 3 1 2) ∧
    (∀ n ∈ (Instr.tenc 3 1 2).sources, s1.value n = s2.value n) ∧ s1 ≠ s2 := by decide +kernel

theorem test_witness_StatusFollowsTheLastCommand :
    ({ State.reset with pending := [.write 0x100 7] } : State).pending = .write 0x100 7 :: [] ∧
    ({ State.reset with pending := [.read 0x100] } : State).pending = .read 0x100 :: [] := by decide

theorem test_witness_ErrorCodesOfEachCommand :
    ∃ t, exec (.dtk 3 1 2) (rejecting (loaded 16 8) (ramp 16 ++ ramp 8)) = .next t ∧ t.status = 4 :=
  ⟨_, rfl, by decide +kernel⟩

theorem test_witness_StepKeepsLegalStates :
    ({ State.reset with pending := [.write 0x018 0x18] } : State).Inv ∧
    ∃ t, step { State.reset with pending := [.write 0x018 0x18] } = .next t ∧ (t.buf 0).len.toNat = 24 :=
  ⟨by decide +kernel, _, rfl, by decide +kernel⟩

/-! ### Witnesses: the Block Cipher Primitive -/

theorem test_witness_DesDecipherInvertsEncipher : (ramp 8).length = 8 := by decide

theorem test_witness_DesIgnoresParityBits :
    (hex 8 0x0123456789ABCDEF).length = 8 ∧ (hex 8 0x0022446688AACCEE).length = 8 ∧
    (hex 8 0x0123456789ABCDEF).map (· &&& 0xFE) = (hex 8 0x0022446688AACCEE).map (· &&& 0xFE) ∧
    hex 8 0x0123456789ABCDEF ≠ hex 8 0x0022446688AACCEE := by decide +kernel

theorem test_witness_DesBitNumbering : (1 ≤ 1 ∧ 1 ≤ 64) ∧ (1 ≤ 64 ∧ 64 ≤ 64) ∧ (ramp 8).length = 8 := by decide

theorem test_witness_BlockFunctionsCheckInOrder :
    (¬ ((ramp 15).length = 16 ∨ (ramp 15).length = 24) ∧ ¬ ((ramp 0).length = 16 ∨ (ramp 0).length = 24)) ∧
    ((ramp 16).length = 16 ∧ (ramp 7).length ≠ 8 ∧ (ramp 9).length ≠ 8) ∧
    ((ramp 24).length = 24 ∧ (ramp 8).length = 8 ∧ (fun _ : Bytes => true) (tripleLength (ramp 24)) = true) ∧
    (fun _ : Bytes => false) (tripleLength (ramp 16)) = false := by decide

theorem test_witness_KexpExpandsTheKey :
    ((loaded 16 0).value 1).length = 16 ∧ ((loaded 24 0).value 1).length = 24 ∧
    (((loaded 15 0).value 1).length ≠ 16 ∧ ((loaded 15 0).value 1).length ≠ 24) ∧
    (((loaded 23 0).value 1).length ≠ 16 ∧ ((loaded 23 0).value 1).length ≠ 24) := by decide +kernel

/-- Each clause of the statements about `TENC` and `TDEC`: accepted under both key lengths, wrong key length, wrong block
length, rejected key. -/
theorem test_witness_TencEncryptsOneBlock :
    (((loaded 16 8).value 1).length = 16 ∧ ((loaded 16 8).value 2).length = 8 ∧
      (loaded 16 8).rejectKey (tripleLength ((loaded 16 8).value 1)) = false) ∧
    (((loaded 24 8).value 1).length = 24 ∧ ((loaded 24 8).value 2).length = 8) ∧
    (((loaded 17 8).value 1).length ≠ 16 ∧ ((loaded 17 8).value 1).length ≠ 24) ∧
    (((loaded 16 7).value 1).length = 16 ∧ ((loaded 16 7).value 2).length ≠ 8) ∧
    ((rejecting (loaded 16 8) (ramp 16 ++ ramp 8)).rejectKey (tripleLength ((loaded 16 8).value 1)) = true) := by
  decide +kernel

theorem test_witness_TdecDecryptsOneBlock :
    (((loaded 24 8).value 1).length = 24 ∧ ((loaded 24 8).value 2).length = 8 ∧
      (loaded 24 8).rejectKey (tripleLength ((loaded 24 8).value 1)) = false) ∧
    (((loaded 23 8).value 1).length ≠ 16 ∧ ((loaded 23 8).value 1).length ≠ 24) ∧
    (((loaded 24 9).value 1).length = 24 ∧ ((loaded 24 9).value 2).length ≠ 8) ∧
    ((rejecting (loaded 24 8) (ramp 24)).rejectKey (tripleLength ((loaded 24 8).value 1)) = true) := by
  decide +kernel

theorem test_witness_DecryptionUndoesEncryption :
    ((loaded 16 8).value 1).length = 16 ∧ ((loaded 16 8).value 2).length = 8 ∧
    (loaded 16 8).rejectKey (tripleLength ((loaded 16 8).value 1)) = false ∧ (2 : BufIx) ≠ 1 := by decide +kernel

theorem test_witness_KeyingOptionsCoincide :
    (ramp 16).length = 16 ∧ (ramp 8).length = 8 ∧
    (fun k => k == ramp 24) (ramp 8 ++ ramp 8 ++ ramp 8) = false := by decide

/-! ### Witnesses: the Byte Utilities -/

theorem test_witness_XorIsElementWise :
    ((loaded 24 24).value 1).length = ((loaded 24 24).value 2).length ∧
    ((loaded 0 1).value 1).length ≠ ((loaded 0 1).value 2).length ∧
    ((loaded 0 0).value 1 = [] ∧ (loaded 0 0).value 2 = []) := by decide +kernel

theorem test_witness_XorLaws : (hex 2 0x0123).length = (hex 2 0xC0C0).length ∧ (hex 2 0xC0C0).length = (ramp 2).length := by
  decide

theorem test_witness_MskiMasksTheFirstEightBytes :
    8 ≤ ((loaded 8 0).value 1).length ∧ 8 ≤ ((loaded 24 0).value 1).length ∧ ((loaded 7 0).value 1).length < 8 ∧
    8 ≤ (ramp 8).length := by decide +kernel

theorem test_witness_MskrMasksTheWindow :
    ((loaded 8 0).value 1).length = 8 ∧ ((loaded 10 0).value 1).length = 10 ∧
    (((loaded 9 0).value 1).length ≠ 8 ∧ ((loaded 9 0).value 1).length ≠ 10) ∧
    (((loaded 11 0).value 1).length ≠ 8 ∧ ((loaded 11 0).value 1).length ≠ 10) ∧
    (ramp 10).length = 10 ∧ (ramp 8).length = 8 := by decide +kernel

/-! ### Witnesses: the key derivations -/

theorem test_witness_IpekDerivesTheInitialKey :
    (((loaded 16 8).value 1).length = 16 ∧ 8 ≤ ((loaded 16 8).value 2).length ∧
      foldAccepted (loaded 16 8) (ramp 16) ipekVariant) ∧
    ((loaded 24 10).value 1).length ≠ 16 ∧ ((loaded 16 7).value 2).length < 8 ∧
    ¬ foldAccepted (rejecting (loaded 16 10) (ramp 16 ++ ramp 8)) (ramp 16) ipekVariant ∧
    ¬ foldAccepted (rejecting (loaded 16 10) (tripleLength (variantKey (ramp 16) ipekVariant))) (ramp 16) ipekVariant := by
  unfold foldAccepted; decide +kernel

theorem test_witness_IpekIgnoresTheCounter :
    8 ≤ (hex 8 0xFFFF9876543210E0).length ∧ 8 ≤ (hex 10 0xFFFF9876543210FFFFFF).length ∧
    (hex 8 0xFFFF9876543210E0).take 7 = (hex 10 0xFFFF9876543210FFFFFF).take 7 ∧
    (hex 8 0xFFFF9876543210E0).getD 7 0 &&& 0xE0 = (hex 10 0xFFFF9876543210FFFFFF).getD 7 0 &&& 0xE0 := by decide

theorem test_witness_IpekDecomposes :
    ∃ m l v r, (ramp 16).length = 16 ∧ maskKsnForIpek (ramp 10) = .ok m ∧
      encryptBlock (fun _ => false) (ramp 16) m = .ok l ∧ xorBytes (ramp 16) (ipekVariant ++ ipekVariant) = .ok v ∧
      encryptBlock (fun _ => false) v m = .ok r := by
  refine ⟨ipekMasked (ramp 10), _, variantKey (ramp 16) ipekVariant, _, rfl, ?_, encryptBlock_of_sixteen ?_ ?_, ?_,
    encryptBlock_of_sixteen ?_ ?_⟩ <;> decide +kernel

/-- Each clause of the statement about `SKR`. -/
theorem test_witness_SkrPerformsOneRound :
    (((loaded 16 8).value 1).length = 16 ∧ ((loaded 16 8).value 2).length = 8 ∧
      foldAccepted (loaded 16 8) (ramp 16) roundVariant) ∧
    ((loaded 16 10).value 2).length = 10 ∧ ((loaded 15 8).value 1).length ≠ 16 ∧
    (((loaded 16 9).value 2).length ≠ 8 ∧ ((loaded 16 9).value 2).length ≠ 10) ∧
    ¬ foldAccepted (rejecting (loaded 16 8) (tripleLength (variantKey (ramp 16) roundVariant))) (ramp 16) roundVariant := by
  unfold foldAccepted; decide +kernel

theorem test_witness_SkrIgnoresTheCounter :
    (hex 8 0x9876543210E00000).length = 8 ∧ (hex 10 0x00009876543210FFFFFF).length = 10 ∧
    ∃ c, ksnWindow (hex 10 0x00009876543210FFFFFF) = withCounter (ksnWindow (hex 8 0x9876543210E00000)) c ∧
      c < 2 ^ 21 := ⟨by decide, by decide, 0x1FFFFF, by decide, by decide⟩

/-- Accepted keys: the KSN of the scenario, whose counter is 1. -/
theorem test_witness_DtkIteratesTheRound_accepted :
    let s := State.holding [(1, ramp 16), (2, hex 10 0xFFFF9876543210E00001)]
    ((s.value 1).length = 16 ∧ (s.value 2).length = 10) ∧ (counterOnes (counterNat (ksnWindow (s.value 2)))).length = 1 ∧
    ∀ j, j ≤ 1 → foldAccepted s (roundIterate (s.value 2) j (s.value 1)) roundVariant := by
  refine ⟨by decide +kernel, by decide +kernel, fun j _ => ?_⟩
  exact ⟨rfl, rfl⟩

theorem test_witness_DtkIteratesTheRound_lengths :
    ((loaded 24 8).value 1).length ≠ 16 ∧
    (((loaded 16 9).value 1).length = 16 ∧ ((loaded 16 9).value 2).length ≠ 8 ∧ ((loaded 16 9).value 2).length ≠ 10) := by
  decide +kernel

/-- A key rejected in the first round (`j = 0`), and one rejected in the last (`j = n = 1`). -/
theorem test_witness_DtkIteratesTheRound_rejected :
    let k := hex 8 0x9876543210E00001
    let s := State.holding [(1, ramp 16), (2, k)]
    (s.value 1 = ramp 16 ∧ s.value 2 = k ∧ (ramp 16).length = 16 ∧ k.length = 8) ∧
    (counterOnes (counterNat (ksnWindow k))).length = 1 ∧
    ¬ foldAccepted (rejecting s (tripleLength (ramp 16))) (roundIterate k 0 (ramp 16)) roundVariant ∧
    ¬ foldAccepted (rejecting s (tripleLength (roundIterate k 1 (ramp 16)))) (roundIterate k 1 (ramp 16))
      roundVariant := by
  refine ⟨by decide +kernel, by decide, ?_, ?_⟩ <;> simp [foldAccepted, State.rejectKey, rejecting, roundIterate]

theorem test_witness_CounterLayout :
    (0 < 21 ∧ 20 < 21) ∧ (hex 10 0xFFFF9876543210E00001).length = 10 ∧
    selectKsn8 (hex 10 0xFFFF9876543210E00001) = .ok (hex 8 0x9876543210E00001) ∧
    (hex 8 0x9876543210E00001).length = 8 := ⟨by decide, by decide, rfl, by decide⟩

theorem test_witness_WorkingKsnIsCumulative : (hex 8 0x9876543210FFFFFF).length = 8 ∧ 0 < 21 ∧ 20 < 21 := by decide

theorem test_witness_DtkDecomposesIntoRounds : (ramp 16).length = 16 ∧ (hex 8 0x9876543210E00003).length = 8 := by decide

theorem test_witness_DtkDependsOnTheNumberOfOnes :
    (ramp 8).length = 8 ∧ 1 < 2 ^ 21 ∧ 0x100000 < 2 ^ 21 ∧ (counterOnes 1).length = (counterOnes 0x100000).length := by
  decide

theorem test_witness_DtkWithCounterZeroIsSkr :
    counterNat (ksnWindow ((State.holding [(2, hex 10 0xFFFF9876543210E00000)]).value 2)) = 0 := by decide +kernel

end Sys2Proof.Tests
end

section
/-! Proofs about the engine's state (10_state.md): its reset values (R32), `STATUS` (R26) and that what a command does is a
function of its word, its source values and the parameters (R31). -/

namespace Sys2Proof.Machine

/-! ### The two ways a command ends, field by field -/

@[simp] theorem returned_raiseError (e : ErrorKind) (s : State) :
    (raiseError e s).returned = s.returned ++ [some (e.code.setWidth 8)] := by
  simp [raiseError]

@[simp] theorem returned_complete (rd : BufIx) (v : Bytes) (s : State) :
    (complete rd v s).returned = s.returned ++ [some 0] := by
  rw [complete, returned_respond, statusValue_setErr]
  rfl

@[simp] theorem buf_complete_same (rd : BufIx) (v : Bytes) (s : State) :
    (complete rd v s).buf rd = Buffer.ofValue v := by
  simp [complete]

/-- The code of an error is never the code of success (60_exceptions.md R186). -/
theorem code_ne_zero (e : ErrorKind) : (e.code.setWidth 8 : Byte) ≠ 0 := by
  cases e <;> decide

/-! ### What an `H-ISSUE` does, by what its word decodes to -/

theorem issue_of_decode_ok {w : CommandWord} {i : Instr} (h : decode w = .ok i) (s : State) :
    issue w s = finish i.dest (commandFunction i s.rejectKey s.value) s := by
  simp [issue, h, exec_eq_finish]

theorem issue_of_decode_error {w : CommandWord} {x : Illegal} (h : decode w = .error x) (s : State) :
    issue w s = .next (raiseError .illegalCommand s) := by
  simp [issue, h]

/-- A command completes with the value of its function. -/
theorem completes_of_commandFunction {i : Instr} {s : State} {v : Bytes}
    (h : commandFunction i s.rejectKey s.value = .ok v) : Completes i s v := by
  unfold Completes
  rw [exec_eq_finish, h]
  exact finish_ok (commandFunction_length h)

/-- A command's function looks at the values of its sources only (10_state.md R31). -/
theorem commandFunction_congr {i : Instr} {value1 value2 : BufIx → Bytes} (reject : Bytes → Bool)
    (h : ∀ n ∈ i.sources, value1 n = value2 n) : commandFunction i reject value1 = commandFunction i reject value2 := by
  cases i <;> simp only [Instr.sources, List.forall_mem_cons] at h <;> simp only [commandFunction, h]

/-- However an `H-ISSUE` ends, the last it does is to set `ERR` to a code of 0 to 6 and to respond (60_exceptions.md R190,
R191). -/
theorem issue_sets_err (w : CommandWord) (s : State) :
    ∃ (u : State) (c : BitVec 3), issue w s = .next (u.setErr c).respond ∧ (c.setWidth 8 : Byte).toNat ≤ 6 ∧
      u.returned = s.returned := by
  rcases issue_cases w s with ⟨i, v, -, -, h⟩ | ⟨i, e, -, -, h⟩ | ⟨x, -, h⟩
  · exact ⟨s.writeBuffer i.dest v, codeOk, h, by decide, rfl⟩
  · exact ⟨s, e.code, h, code_le_six e, rfl⟩
  · exact ⟨s, ErrorKind.illegalCommand.code, h, code_le_six _, rfl⟩

/-- Every command overwrites `STATUS`, and none looks at it (10_state.md R26). -/
theorem issue_withStatus (w : CommandWord) (s : State) (x : Byte) : issue w { s with status := x } = issue w s := by
  cases hd : decode w with
  | error _ =>
    rw [issue_of_decode_error hd, issue_of_decode_error hd]
    rfl
  | ok i =>
    rw [issue_of_decode_ok hd, issue_of_decode_ok hd]
    change finish i.dest (commandFunction i s.rejectKey s.value) _ = _
    cases commandFunction i s.rejectKey s.value <;> rfl

/-! ### `STATUS` at the port -/

theorem memRead_statusAddr (s : State) : memRead statusAddr s = s.statusValue := by
  simp [memRead, locate_statusAddr]

theorem memWrite_statusAddr (v : Byte) (s : State) : memWrite statusAddr v s = s := by
  simp [memWrite, locate_statusAddr]

/-- `STATUS` reads with bits 7:3 zero, whatever the field holds (10_state.md R26). -/
theorem State.statusValue_le_seven (s : State) : s.statusValue.toNat ≤ 7 := by
  have h := s.err.isLt
  simp only [State.statusValue, BitVec.toNat_setWidth]
  omega

/-! ### The reset state -/

@[simp] theorem buf_reset (n : BufIx) : State.reset.buf n = Buffer.reset := by
  simp [State.buf, State.reset]

@[simp] theorem len_reset : Buffer.reset.len = 0 := rfl

@[simp] theorem data_reset (j : Fin 24) : Buffer.reset.data[j] = 0 := by
  simp [Buffer.reset]

@[simp] theorem value_reset (n : BufIx) : State.reset.value n = [] := by
  simp [State.value, Buffer.value]

theorem memRead_reset (a : PortAddr) : memRead a State.reset = 0 := by
  unfold memRead
  cases locate a with
  | data n j => simp only [buf_reset, data_reset]
  | len n => simp
  | status => rfl
  | reserved => rfl

/-! ### The statements -/

/-- Settles O22: both issues decode alike, and a legal word's function gives both states the same result, with which the
command ends in each. -/
theorem commandsArePure : Obligations.CommandsArePure := by
  intro w s1 s2 hkeys hvals
  cases hd : decode w with
  | error x =>
    rw [issue_of_decode_error hd, issue_of_decode_error hd]
    exact ⟨_, _, rfl, rfl, rfl, ⟨_, returned_raiseError _ _, returned_raiseError _ _⟩, nofun⟩
  | ok i =>
    have hreject : s1.rejectKey = s2.rejectKey := by funext k; simp [State.rejectKey, hkeys]
    rw [issue_of_decode_ok hd, issue_of_decode_ok hd, hreject, commandFunction_congr _ (hvals i hd)]
    cases commandFunction i s2.rejectKey s2.value with
    | error e =>
      exact ⟨_, _, rfl, rfl, rfl, ⟨_, returned_raiseError _ _, returned_raiseError _ _⟩,
        fun _ _ h => absurd h (code_ne_zero e)⟩
    | ok v =>
      refine ⟨_, _, rfl, rfl, rfl, ⟨_, returned_complete _ _ _, returned_complete _ _ _⟩, ?_⟩
      rintro _ ⟨⟩ -
      rw [buf_complete_same, buf_complete_same]

/-- Settles O23, from what an `H-ISSUE` does last and from what the port does at the address of `STATUS`. -/
theorem statusFollowsTheLastCommand : Obligations.StatusFollowsTheLastCommand := by
  refine ⟨rfl, rfl, rfl, rfl, rfl, rfl, rfl, rfl, fun s w x v a rest => ⟨?_, issue_withStatus w s x, ?_,
    memWrite_statusAddr v s, fun hp => ?_, fun hp => ?_⟩⟩
  · change (memRead statusAddr s).toNat ≤ 7
    rw [memRead_statusAddr]
    exact s.statusValue_le_seven
  · obtain ⟨u, c, hissue, hcode, hret⟩ := issue_sets_err w s
    refine ⟨_, hissue, hcode, by simp [hret], ?_⟩
    exact (memRead_statusAddr _).trans (statusValue_setErr u c)
  · exact ⟨_, step_of_pending hp, (memWrite_keeps a v _).1⟩
  · exact ⟨_, step_of_pending hp, rfl⟩

/-- Settles O13, from the reset values of a buffer; the function of `XOR` gives the empty string of two empty ones. -/
theorem resetStateIsEmpty : Obligations.ResetStateIsEmpty := by
  refine ⟨fun n => ⟨by simp, fun j => by simp only [buf_reset, data_reset]⟩, rfl, value_reset, memRead_reset,
    fun rd rs1 rs2 => completes_of_commandFunction ?_⟩
  simp [commandFunction, xorBytes_eq]

end Sys2Proof.Machine
end

section
/-! Proofs about the operand space (20_memory.md): what a port read returns (R52), what a port write changes (R53), and
how a `LEN` write is legalised (R54), at each address of the map (R51). -/

namespace Sys2Proof.Machine

/-! ### The addresses, as the statements write them -/

theorem ofNat_eq_windowAddr (n : BufIx) (j : Nat) : BitVec.ofNat 9 (n.val * 32 + j) = windowAddr n j := rfl

theorem ofNat_eq_lenAddr (n : BufIx) : BitVec.ofNat 9 (n.val * 32 + 24) = lenAddr n := rfl

/-- The reserved addresses: offsets `0x19` to `0x1F` of a buffer's window, and everything above `STATUS` (R51). -/
theorem locate_reserved {a : PortAddr} (h : a.toNat < 256 ∧ 25 ≤ a.toNat % 32 ∨ 257 ≤ a.toNat) :
    locate a = .reserved := by
  unfold locate
  rcases h with ⟨hwindow, hoffset⟩ | habove
  · rw [dif_pos (by omega), dif_neg (by omega), if_neg (by omega)]
  · rw [dif_neg (by omega), if_neg (by omega)]

/-! ### What a port read returns -/

theorem memRead_windowAddr (n : BufIx) (j : Fin 24) (s : State) :
    memRead (windowAddr n j.val) s = (s.buf n).data[j] := by
  simp only [memRead, locate_windowAddr_data]

theorem toNat_memRead_lenAddr (n : BufIx) (s : State) : (memRead (lenAddr n) s).toNat = (s.buf n).len.toNat := by
  simp only [memRead, locate_lenAddr, BitVec.toNat_setWidth]
  omega

theorem memRead_reserved {a : PortAddr} (h : locate a = .reserved) (s : State) : memRead a s = 0 := by
  simp only [memRead, h]

/-- `STATUS` reads as it is held when its bits 7:3 are zero, as in every legal state (10_state.md R26). -/
theorem State.statusValue_of_inv {s : State} (h : s.Inv) : s.statusValue = s.status := by
  obtain ⟨-, hcode⟩ := h
  apply BitVec.eq_of_toNat_eq
  simp only [State.statusValue, State.err, BitVec.toNat_setWidth, BitVec.extractLsb'_toNat, Nat.shiftRight_zero]
  omega

/-- A port read looks at the buffers and at `STATUS` only. -/
theorem memRead_congr {s t : State} (hbufs : t.bufs = s.bufs) (hstatus : t.status = s.status) (a : PortAddr) :
    memRead a t = memRead a s := by
  simp only [memRead, State.buf, State.statusValue, State.err, hbufs, hstatus]

/-! ### What a port write changes -/

theorem memWrite_windowAddr (n : BufIx) (j : Fin 24) (v : Byte) (s : State) :
    memWrite (windowAddr n j.val) v s = s.setData n j v := by
  simp only [memWrite, locate_windowAddr_data]

theorem memWrite_lenAddr (n : BufIx) (v : Byte) (s : State) : memWrite (lenAddr n) v s = s.setLen n v := by
  simp only [memWrite, locate_lenAddr]

theorem memWrite_reserved {a : PortAddr} (h : locate a = .reserved) (v : Byte) (s : State) : memWrite a v s = s := by
  simp only [memWrite, h]

/-! ### What a `LEN` write changes -/

theorem toNat_len_setLen_of_le (s : State) (n : BufIx) {v : Byte} (h : v.toNat ≤ 24) :
    ((s.setLen n v).buf n).len.toNat = v.toNat := by
  rw [setLen_of_le _ _ _ h, buf_setBuf_same, BitVec.toNat_setWidth]
  omega

theorem buf_setLen_ne (s : State) {n m : BufIx} (v : Byte) (h : m ≠ n) : (s.setLen n v).buf m = s.buf m := by
  unfold State.setLen
  split
  · exact buf_setBuf_ne _ _ _ _ h
  · rfl

/-- A `LEN` write changes no `DATA` byte of any buffer, taken or not (R54). -/
theorem data_setLen (s : State) (n m : BufIx) (v : Byte) : ((s.setLen n v).buf m).data = (s.buf m).data := by
  by_cases hm : m = n
  · subst hm
    unfold State.setLen
    split
    · rw [buf_setBuf_same]
    · rfl
  · rw [buf_setLen_ne s v hm]

/-- Raising `LEN` exposes what the `DATA` bytes already hold (R54). -/
theorem value_setLen_of_le (s : State) (n : BufIx) {v : Byte} (h : v.toNat ≤ 24) :
    (s.setLen n v).value n = (s.buf n).data.toList.take v.toNat := by
  rw [State.value, Buffer.value, data_setLen, toNat_len_setLen_of_le s n h]

/-- A `LEN` write keeps every `LEN` in 0 to 24 (R54). -/
theorem len_setLen_le {s : State} (n : BufIx) (v : Byte) (h : ∀ m : BufIx, (s.buf m).len.toNat ≤ 24) (m : BufIx) :
    ((s.setLen n v).buf m).len.toNat ≤ 24 := by
  by_cases hm : m = n
  · subst hm
    rcases Nat.lt_or_ge 24 v.toNat with hv | hv
    · rw [setLen_of_gt _ _ _ hv]
      exact h m
    · rw [toNat_len_setLen_of_le s m hv]
      exact hv
  · rw [buf_setLen_ne s v hm]
    exact h m

/-! ### The statements -/

/-- Settles O15, one read lemma for each part of the map; an `H-READ` touches only the host's side of the port, which no
read looks at. -/
theorem memReadFollowsTheMap : Obligations.MemReadFollowsTheMap := by
  intro s
  refine ⟨fun n j => memRead_windowAddr n j s, fun n => toNat_memRead_lenAddr n s, fun hinv => ?_,
    fun a ha => memRead_reserved (locate_reserved ha) s, fun a rest hp => ?_⟩
  · exact (memRead_statusAddr s).trans (State.statusValue_of_inv hinv)
  · exact ⟨_, step_of_pending hp, rfl, rfl, rfl, memRead_congr rfl rfl⟩

/-- Settles O16: at each part of the map the write is `setData`, `setLen` or nothing, and no part reaches beyond the
buffers. -/
theorem memWriteFollowsTheMap : Obligations.MemWriteFollowsTheMap := by
  intro s v
  refine ⟨fun n j => ?_, fun n => ?_, memWrite_statusAddr v s,
    fun a ha => memWrite_reserved (locate_reserved ha) v s, fun a => ?_⟩
  · rw [ofNat_eq_windowAddr, memWrite_windowAddr]
    exact ⟨data_setData_same s n j v, fun k hk => data_setData_ne s n j k v hk, len_setData s n j v,
      fun m hm => buf_setData_ne s n m j v hm⟩
  · rw [ofNat_eq_lenAddr, memWrite_lenAddr]
    exact ⟨fun hv => ⟨toNat_len_setLen_of_le s n hv, data_setLen s n n v⟩, fun hv => setLen_of_gt s n v hv,
      fun m hm => buf_setLen_ne s v hm⟩
  · obtain ⟨hstatus, hkeys, hpending, hreturned⟩ := memWrite_keeps a v s
    exact ⟨hstatus, hpending, hreturned, hkeys⟩

/-- Settles O17, from what `setLen` does with a value that is taken and with one that is ignored. -/
theorem lenWriteIsLegalised : Obligations.LenWriteIsLegalised := by
  intro s n v
  rw [ofNat_eq_lenAddr, memWrite_lenAddr]
  refine ⟨fun hv => ?_, fun hv => ?_, fun m => data_setLen s n m v, len_setLen_le n v⟩
  · have hlen := toNat_len_setLen_of_le s n hv
    exact ⟨hlen, BitVec.eq_of_toNat_eq ((toNat_memRead_lenAddr n _).trans hlen), value_setLen_of_le s n hv⟩
  · have hkept : s.setLen n v = s := setLen_of_gt s n v hv
    exact ⟨hkept, by rw [hkept]⟩

end Sys2Proof.Machine
end

section
/-! Proofs about the encoding (30_encoding.md): the rows of R73, which words are illegal and what an illegal word does
(R74), and the two aliases (R77). -/

namespace Sys2Proof.Machine

/-! ### The fields of a word as numbers (R71) -/

theorem toNat_fieldOp (w : CommandWord) : (fieldOp w).toNat = w.toNat / 4096 := by
  simp only [fieldOp, BitVec.extractLsb'_toNat, Nat.shiftRight_eq_div_pow]
  omega

theorem val_fieldRd (w : CommandWord) : (fieldRd w).val = w.toNat / 512 % 8 := by
  simp [fieldRd, Nat.shiftRight_eq_div_pow]

theorem val_fieldRs1 (w : CommandWord) : (fieldRs1 w).val = w.toNat / 64 % 8 := by
  simp [fieldRs1, Nat.shiftRight_eq_div_pow]

theorem val_fieldRs2 (w : CommandWord) : (fieldRs2 w).val = w.toNat / 8 % 8 := by
  simp [fieldRs2, Nat.shiftRight_eq_div_pow]

theorem fieldRs2_eq_zero_iff (w : CommandWord) : fieldRs2 w = 0 ↔ w.toNat / 8 % 8 = 0 := by
  rw [Fin.ext_iff, val_fieldRs2]
  rfl

theorem fieldZero_eq_zero_iff (w : CommandWord) : fieldZero w = 0 ↔ w.toNat % 8 = 0 := by
  simp [fieldZero, ← BitVec.toNat_inj]

theorem isFormatR2_iff (op : BitVec 4) : isFormatR2 op = true ↔ op.toNat = 1 ∨ op.toNat = 5 ∨ op.toNat = 6 := by
  simp [isFormatR2, ← BitVec.toNat_inj, or_assoc]

/-! ### The words R74 lets through, on the fields as numbers -/

theorem opAssigned_iff (w : CommandWord) : opAssigned w = true ↔ 1 ≤ w.toNat / 4096 ∧ w.toNat / 4096 ≤ 9 := by
  rw [← toNat_fieldOp, opAssigned, Bool.and_eq_true, decide_eq_true_eq, decide_eq_true_eq, fieldOp]

theorem zeroClear_iff (w : CommandWord) : zeroClear w = true ↔ w.toNat % 8 = 0 := by
  rw [← fieldZero_eq_zero_iff, zeroClear, beq_iff_eq, fieldZero]

theorem zero2Clear_iff (w : CommandWord) : zero2Clear w = true ↔
    ((w.toNat / 4096 = 1 ∨ w.toNat / 4096 = 5 ∨ w.toNat / 4096 = 6) → w.toNat / 8 % 8 = 0) := by
  have hop : [0x1#4, 0x5#4, 0x6#4].contains (w.extractLsb' 12 4) = isFormatR2 (fieldOp w) := by
    simp [isFormatR2, fieldOp, Bool.or_assoc, Bool.beq_eq_decide_eq]
  have hrs2 : (w.extractLsb' 3 3 == 0) = true ↔ w.toNat / 8 % 8 = 0 := by
    simp [← BitVec.toNat_inj, Nat.shiftRight_eq_div_pow]
  rw [zero2Clear, hop, Bool.or_eq_true, hrs2, Bool.not_eq_true', ← Bool.not_eq_true, isFormatR2_iff, toNat_fieldOp,
    imp_iff_not_or]

theorem wordWellFormed_iff (w : CommandWord) :
    wordWellFormed w = true ↔ (1 ≤ w.toNat / 4096 ∧ w.toNat / 4096 ≤ 9) ∧ w.toNat % 8 = 0 ∧
      ((w.toNat / 4096 = 1 ∨ w.toNat / 4096 = 5 ∨ w.toNat / 4096 = 6) → w.toNat / 8 % 8 = 0) := by
  rw [wordWellFormed, Bool.and_eq_true, Bool.and_eq_true, opAssigned_iff, zeroClear_iff, zero2Clear_iff, and_assoc]

/-! ### The word of R73 as a number -/

theorem or_eq_add_of_dvd {a b : Nat} (i : Nat) (ha : 2 ^ i ∣ a) (hb : b < 2 ^ i) : a ||| b = a + b := by
  obtain ⟨c, rfl⟩ := ha
  exact (Nat.two_pow_add_eq_or_of_lt hb c).symm

/-- The fields of R71 do not overlap, so the word of R73 is their sum. -/
theorem toNat_packWord {op : Nat} (hop : op < 16) (rd rs1 rs2 : BufIx) :
    (packWord op rd rs1 rs2).toNat = op * 4096 + rd.val * 512 + rs1.val * 64 + rs2.val * 8 := by
  have hrd := rd.isLt
  have hrs1 := rs1.isLt
  have hrs2 := rs2.isLt
  simp (disch := omega) only [packWord, BitVec.toNat_or, BitVec.toNat_shiftLeft, BitVec.toNat_ofNat, Nat.shiftLeft_eq,
    Nat.mod_eq_of_lt]
  rw [or_eq_add_of_dvd 12 (b := rd.val * 2 ^ 9) (by omega) (by omega),
    or_eq_add_of_dvd 9 (b := rs1.val * 2 ^ 6) (by omega) (by omega), or_eq_add_of_dvd 6 (by omega) (by omega)]

theorem packWord_eq_ofNat {op : Nat} (hop : op < 16) (rd rs1 rs2 : BufIx) :
    packWord op rd rs1 rs2 = BitVec.ofNat 16 (op * 4096 + rd.val * 512 + rs1.val * 64 + rs2.val * 8) := by
  rw [← toNat_packWord hop, BitVec.ofNat_toNat, BitVec.setWidth_eq]

theorem packWord_eq_iff {op : Nat} (hop : op < 16) (rd rs1 rs2 : BufIx) (w : CommandWord) :
    packWord op rd rs1 rs2 = w ↔ w.toNat / 4096 = op ∧ w.toNat % 8 = 0 ∧
      rd.val = w.toNat / 512 % 8 ∧ rs1.val = w.toNat / 64 % 8 ∧ rs2.val = w.toNat / 8 % 8 := by
  have hrd := rd.isLt
  have hrs1 := rs1.isLt
  have hrs2 := rs2.isLt
  rw [← BitVec.toNat_inj, toNat_packWord hop]
  omega

/-- A word whose low three bits are zero is packed from its own fields. -/
theorem packWord_fields {w : CommandWord} {op : Nat} (hzero : fieldZero w = 0) (hop : (fieldOp w).toNat = op) :
    packWord op (fieldRd w) (fieldRs1 w) (fieldRs2 w) = w :=
  (packWord_eq_iff (hop ▸ (fieldOp w).isLt) _ _ _ w).2
    ⟨toNat_fieldOp w ▸ hop, (fieldZero_eq_zero_iff w).1 hzero, val_fieldRd w, val_fieldRs1 w, val_fieldRs2 w⟩

theorem packWord_fields_R2 {w : CommandWord} {op : Nat} (hzero : fieldZero w = 0) (hzero2 : fieldRs2 w = 0)
    (hop : (fieldOp w).toNat = op) : packWord op (fieldRd w) (fieldRs1 w) 0 = w :=
  hzero2 ▸ packWord_fields hzero hop

/-- The fields of a packed word are the ones it was packed from. -/
theorem fields_packWord {op : Nat} (hop : op < 16) (rd rs1 rs2 : BufIx) :
    (fieldOp (packWord op rd rs1 rs2)).toNat = op ∧ fieldZero (packWord op rd rs1 rs2) = 0 ∧
      fieldRd (packWord op rd rs1 rs2) = rd ∧ fieldRs1 (packWord op rd rs1 rs2) = rs1 ∧
      fieldRs2 (packWord op rd rs1 rs2) = rs2 := by
  obtain ⟨hfop, hzero, hrd, hrs1, hrs2⟩ := (packWord_eq_iff hop rd rs1 rs2 _).1 rfl
  exact ⟨(toNat_fieldOp _).trans hfop, (fieldZero_eq_zero_iff _).2 hzero, Fin.ext ((val_fieldRd _).trans hrd.symm),
    Fin.ext ((val_fieldRs1 _).trans hrs1.symm), Fin.ext ((val_fieldRs2 _).trans hrs2.symm)⟩

/-! ### What decoding can do, said once -/

/-- A word that passes the three checks of R74 decodes to a command whose word it is; any other word decodes to none. -/
theorem decode_cases (w : CommandWord) :
    (wordWellFormed w = true ∧ ∃ i, decode w = .ok i ∧ encode i = w) ∨
    (wordWellFormed w = false ∧ ∃ x, decode w = .error x) := by
  rw [← Bool.not_eq_true, wordWellFormed_iff, ← toNat_fieldOp, ← isFormatR2_iff, ← fieldRs2_eq_zero_iff,
    ← fieldZero_eq_zero_iff]
  unfold decode
  split
  case isTrue hzero => exact .inr ⟨fun ⟨_, h, _⟩ => hzero h, _, rfl⟩
  case isFalse hzero =>
    rw [not_not] at hzero
    split
    case isTrue hzero2 => exact .inr ⟨fun ⟨_, _, h⟩ => hzero2.2 (h hzero2.1), _, rfl⟩
    case isFalse hzero2 =>
      have hrs2 : isFormatR2 (fieldOp w) = true → fieldRs2 w = 0 := by simpa using hzero2
      split
      case h_1 hop | h_5 hop | h_6 hop =>
        have hR2 : isFormatR2 (fieldOp w) = true := by simp [isFormatR2_iff, hop]
        exact .inl ⟨⟨by omega, hzero, hrs2⟩, _, rfl, packWord_fields_R2 hzero (hrs2 hR2) hop⟩
      case h_2 hop | h_3 hop | h_4 hop | h_7 hop | h_8 hop | h_9 hop =>
        exact .inl ⟨⟨by omega, hzero, hrs2⟩, _, rfl, packWord_fields hzero hop⟩
      case h_10 =>
        refine .inr ⟨fun ⟨hop, _⟩ => ?_, _, rfl⟩
        simp only [imp_false] at *
        omega

theorem decode_encode (i : Instr) : decode (encode i) = .ok i := by
  cases i <;> simp [encode, decode, isFormatR2_iff, fields_packWord]

theorem decode_eq_ok_iff (w : CommandWord) (i : Instr) : decode w = .ok i ↔ encode i = w := by
  refine ⟨fun h => ?_, fun h => h ▸ decode_encode i⟩
  rcases decode_cases w with ⟨-, j, hj, henc⟩ | ⟨-, x, hx⟩
  · rw [hj] at h
    exact Except.ok.inj h ▸ henc
  · rw [hx] at h
    cases h

theorem wordWellFormed_iff_exists_decode (w : CommandWord) : wordWellFormed w = true ↔ ∃ i, decode w = .ok i := by
  rcases decode_cases w with ⟨hwf, i, hi, -⟩ | ⟨hwf, x, hx⟩
  · simp [hwf, hi]
  · simp [hwf, hx]

/-- An `H-ISSUE` of an illegal word takes the error `IllegalCommand` and does nothing else (30_encoding.md R74). -/
theorem issue_of_not_wordWellFormed {w : CommandWord} (h : ¬ wordWellFormed w = true) (s : State) :
    ∃ t, issue w s = .next t ∧ FailsWith s t 6 := by
  rcases decode_cases w with ⟨hwf, -⟩ | ⟨-, x, hx⟩
  · exact absurd hwf h
  · exact ⟨_, issue_of_decode_error hx s, raiseError_fails .illegalCommand s⟩

/-! ### Masks and matches (R73) -/

theorem toNat_append_div {m n : Nat} (x : BitVec m) (y : BitVec n) : (x ++ y).toNat / 2 ^ n = x.toNat := by
  rw [← Nat.shiftRight_eq_div_pow, BitVec.toNat_append, Nat.shiftRight_or_distrib, Nat.shiftLeft_shiftRight,
    Nat.shiftRight_eq_div_pow, Nat.div_eq_of_lt y.isLt, Nat.or_zero]

theorem toNat_append_mod {m n : Nat} (x : BitVec m) (y : BitVec n) : (x ++ y).toNat % 2 ^ n = y.toNat := by
  rw [← Nat.shiftRight_zero (n := (x ++ y).toNat), ← BitVec.extractLsb'_toNat, BitVec.extractLsb'_append_eq_right]

theorem append_inj_iff {m n : Nat} {x x' : BitVec m} {y y' : BitVec n} : x ++ y = x' ++ y' ↔ x = x' ∧ y = y' := by
  refine ⟨fun h => ⟨?_, ?_⟩, fun ⟨hx, hy⟩ => hx ▸ hy ▸ rfl⟩
  · simpa only [BitVec.extractLsb'_append_eq_left] using congrArg (BitVec.extractLsb' n m) h
  · simpa only [BitVec.extractLsb'_append_eq_right] using congrArg (BitVec.extractLsb' 0 n) h

/-- Each `mask` of R73 keeps the opcode and the low `k` bits, and each `match` is an opcode followed by zeros. -/
theorem and_rowMask_eq_iff {m k : Nat} (op : BitVec 4) (w : BitVec (4 + m + k)) :
    w &&& (BitVec.allOnes 4 ++ 0#m ++ BitVec.allOnes k) = op ++ 0#m ++ 0#k ↔
      w.toNat / 2 ^ k / 2 ^ m = op.toNat ∧ w.toNat % 2 ^ k = 0 := by
  obtain ⟨hi, mid, lo, rfl⟩ : ∃ (hi : BitVec 4) (mid : BitVec m) (lo : BitVec k), w = hi ++ mid ++ lo :=
    ⟨_, _, _, by rw [BitVec.extractLsb'_append_extractLsb', BitVec.extractLsb'_append_extractLsb']⟩
  simp only [BitVec.and_append, append_inj_iff, BitVec.and_allOnes, BitVec.and_zero, and_true, toNat_append_div,
    toNat_append_mod, BitVec.toNat_inj, ← BitVec.toNat_inj (y := 0#k), BitVec.toNat_zero]

/-- A row of format R2: `mask` `0xF03F`, and two operands. -/
theorem packWord_eq_iff_maskR2 (op : BitVec 4) (rd rs1 : BufIx) (w : CommandWord) :
    packWord op.toNat rd rs1 0 = w ↔ w &&& 0xF03F#16 = op ++ 0#6 ++ 0#6 ∧
      rd.val = w.toNat / 512 % 8 ∧ rs1.val = w.toNat / 64 % 8 := by
  have hmask : w &&& 0xF03F#16 = op ++ 0#6 ++ 0#6 ↔ w.toNat / 2 ^ 6 / 2 ^ 6 = op.toNat ∧ w.toNat % 2 ^ 6 = 0 :=
    and_rowMask_eq_iff (m := 6) (k := 6) op w
  rw [packWord_eq_iff op.isLt, hmask, Fin.val_zero]
  omega

/-- A row of format R3: `mask` `0xF007`, and three operands. -/
theorem packWord_eq_iff_maskR3 (op : BitVec 4) (rd rs1 rs2 : BufIx) (w : CommandWord) :
    packWord op.toNat rd rs1 rs2 = w ↔ w &&& 0xF007#16 = op ++ 0#9 ++ 0#3 ∧
      (rd.val = w.toNat / 512 % 8 ∧ rs1.val = w.toNat / 64 % 8) ∧ rs2.val = w.toNat / 8 % 8 := by
  have hmask : w &&& 0xF007#16 = op ++ 0#9 ++ 0#3 ↔ w.toNat / 2 ^ 3 / 2 ^ 9 = op.toNat ∧ w.toNat % 2 ^ 3 = 0 :=
    and_rowMask_eq_iff (m := 9) (k := 3) op w
  rw [packWord_eq_iff op.isLt, hmask]
  omega

/-! ### The statements -/

/-- Settles O3: a word decodes to a command exactly when it is the command's word, and the word of a row is told by the
row's `mask` and `match`. -/
theorem maskAndMatchDecideTheCommand : Obligations.MaskAndMatchDecideTheCommand := by
  intro w rd rs1 rs2 r2 r3 word
  have hrow2 (op : BitVec 4) := packWord_eq_iff_maskR2 op rd rs1 w
  have hrow3 (op : BitVec 4) := packWord_eq_iff_maskR3 op rd rs1 rs2 w
  have hword (op : BitVec 4) (second : BufIx) : packWord op.toNat rd rs1 second = word op.toNat second :=
    packWord_eq_ofNat op.isLt rd rs1 second
  simp only [decode_eq_ok_iff]
  exact ⟨hrow2 1, hrow3 2, hrow3 3, hrow3 4, hrow2 5, hrow2 6, hrow3 7, hrow3 8, hrow3 9,
    hword 1 0, hword 2 rs2, hword 3 rs2, hword 4 rs2, hword 5 0, hword 6 0, hword 7 rs2, hword 8 rs2, hword 9 rs2⟩

/-- Settles O4: the checks of R74 are the ones decoding makes, and an `H-ISSUE` of an illegal word delivers
`IllegalCommand`. -/
theorem illegalWordRaisesIllegalCommand : Obligations.IllegalWordRaisesIllegalCommand := by
  intro w s op illegal
  have hillegal : illegal ↔ ¬ wordWellFormed w = true := by
    rw [wordWellFormed_iff]
    omega
  have hexists := wordWellFormed_iff_exists_decode w
  exact ⟨by rw [hillegal, hexists, not_exists], hexists, fun h => issue_of_not_wordWellFormed (hillegal.1 h) s,
    issue_of_not_wordWellFormed (by decide) s, issue_of_not_wordWellFormed (by decide) s⟩

/-- Settles O6: both expansions are the aliased command itself. -/
theorem codecAliasesAreTencAndTdec : Obligations.CodecAliasesAreTencAndTdec :=
  fun _ _ _ => ⟨rfl, rfl, rfl, rfl⟩

end Sys2Proof.Machine
end

section
/-! Proofs about single DES (40_des_algorithm.md): what enciphering a block answers in terms of its rounds (R101), the
halves after each round as a list, and the textbook vectors (R104). -/

namespace Sys2Proof.Machine

/-! ### The halves after each round -/

/-- The halves before the first round and after each round, in order (R101). -/
def feistelHalves : List (BitVec 48) → BitVec 32 × BitVec 32 → List (BitVec 32 × BitVec 32)
  | [], lr => [lr]
  | k :: rest, lr => lr :: feistelHalves rest (lr.2, lr.1 ^^^ feistelF lr.2 k)

/-- The halves listed are those after the first `n` rounds, for each number `n` of rounds. -/
theorem map_feistelRounds_take (keys : List (BitVec 48)) (lr : BitVec 32 × BitVec 32) :
    (List.range (keys.length + 1)).map (fun n => feistelRounds (keys.take n) lr) = feistelHalves keys lr := by
  induction keys generalizing lr with
  | nil => rfl
  | cons k rest ih =>
    rw [List.length_cons, List.range_succ_eq_map, List.map_cons, List.map_map]
    exact congrArg (lr :: ·) (ih _)

theorem feistelHalves_ne_nil (keys : List (BitVec 48)) (lr : BitVec 32 × BitVec 32) : feistelHalves keys lr ≠ [] := by
  cases keys <;> simp [feistelHalves]

/-- The halves listed last are those after all the rounds. -/
theorem getLast?_feistelHalves (keys : List (BitVec 48)) (lr : BitVec 32 × BitVec 32) :
    (feistelHalves keys lr).getLast? = some (feistelRounds keys lr) := by
  induction keys generalizing lr with
  | nil => rfl
  | cons k rest ih =>
    rw [feistelHalves, List.getLast?_cons_of_ne_nil (feistelHalves_ne_nil _ _), ih]
    rfl

/-! ### A block through its rounds -/

/-- What `desBlock` answers, from the halves after `IP` and the halves after the rounds (R101). -/
theorem desBlock_eq_of_rounds {keys : List (BitVec 48)} {b : BitVec 64} {l r l' r' : BitVec 32}
    (hip : applyTable 64 tableIP b = joinHalves l r) (hrounds : feistelRounds keys (l, r) = (l', r')) :
    desBlock keys b = applyTable 64 tableFP (joinHalves r' l') := by
  simp [desBlock, hip, hrounds]

/-- The same with the round keys in the opposite order: rounds from the exchanged final halves lead back (R102). -/
theorem desBlock_reverse_eq_of_rounds {keys : List (BitVec 48)} {c : BitVec 64} {l r l' r' : BitVec 32}
    (hip : applyTable 64 tableIP c = joinHalves r' l') (hrounds : feistelRounds keys (l, r) = (l', r')) :
    desBlock keys.reverse c = applyTable 64 tableFP (joinHalves l r) :=
  desBlock_eq_of_rounds hip (by simpa [hrounds] using feistelRounds_reverse keys l r)

/-! ### The first textbook vector (R104) -/

def textbookKey : Bytes := [0x13, 0x34, 0x57, 0x79, 0x9B, 0xBC, 0xDF, 0xF1]
def textbookBlock : Bytes := [0x01, 0x23, 0x45, 0x67, 0x89, 0xAB, 0xCD, 0xEF]
def textbookCipher : Bytes := [0x85, 0xE8, 0x13, 0x54, 0x0F, 0x0A, 0xB4, 0x05]

/-- The sixteen round keys of R104's first table. -/
def textbookRoundKeys : List (BitVec 48) :=
  [0x1B02EFFC7072, 0x79AED9DBC9E5, 0x55FC8A42CF99, 0x72ADD6DB351D, 0x7CEC07EB53A8, 0x63A53E507B2F,
    0xEC84B7F618BC, 0xF78A3AC13BFB, 0xE0DBEBEDE781, 0xB1F347BA464F, 0x215FD3DED386, 0x7571F59467E9,
    0x97C5D1FABA41, 0x5F43B7F2E73A, 0xBF918D3D3F0A, 0xCB3D8B0E17F5]

/-- The halves after `IP` and after each round, R104's second table. -/
def textbookHalves : List (BitVec 32 × BitVec 32) :=
  [(0xCC00CCFF, 0xF0AAF0AA), (0xF0AAF0AA, 0xEF4A6544), (0xEF4A6544, 0xCC017709), (0xCC017709, 0xA25C0BF4),
    (0xA25C0BF4, 0x77220045), (0x77220045, 0x8A4FA637), (0x8A4FA637, 0xE967CD69), (0xE967CD69, 0x064ABA10),
    (0x064ABA10, 0xD5694B90), (0xD5694B90, 0x247CC67A), (0x247CC67A, 0xB7D5D7B2), (0xB7D5D7B2, 0xC5783C78),
    (0xC5783C78, 0x75BD1858), (0x75BD1858, 0x18C3155A), (0x18C3155A, 0xC28C960D), (0xC28C960D, 0x43423234),
    (0x43423234, 0x0A4CD995)]

theorem roundKeys_textbookKey : roundKeys (toBlock textbookKey) = textbookRoundKeys := by decide +kernel

theorem applyTable_tableIP_textbookBlock :
    applyTable 64 tableIP (toBlock textbookBlock) = joinHalves 0xCC00CCFF 0xF0AAF0AA := by decide +kernel

theorem applyTable_tableFP_textbookBlock :
    ofBlock (applyTable 64 tableFP (joinHalves 0xCC00CCFF 0xF0AAF0AA)) = textbookBlock := by decide +kernel

theorem applyTable_tableIP_textbookCipher :
    applyTable 64 tableIP (toBlock textbookCipher) = joinHalves 0x0A4CD995 0x43423234 := by decide +kernel

theorem applyTable_tableFP_textbookCipher :
    ofBlock (applyTable 64 tableFP (joinHalves 0x0A4CD995 0x43423234)) = textbookCipher := by decide +kernel

theorem feistelHalves_textbook : feistelHalves textbookRoundKeys (0xCC00CCFF, 0xF0AAF0AA) = textbookHalves := by
  decide +kernel

/-- The last row of the second table. -/
theorem feistelRounds_textbook :
    feistelRounds textbookRoundKeys (0xCC00CCFF, 0xF0AAF0AA) = (0x43423234, 0x0A4CD995) := by
  have h := getLast?_feistelHalves textbookRoundKeys (0xCC00CCFF, 0xF0AAF0AA)
  rw [feistelHalves_textbook] at h
  exact (Option.some.inj h).symm

theorem desE_textbook : desE textbookKey textbookBlock = textbookCipher := by
  rw [desE, roundKeys_textbookKey, desBlock_eq_of_rounds applyTable_tableIP_textbookBlock feistelRounds_textbook,
    applyTable_tableFP_textbookCipher]

theorem desD_textbook : desD textbookKey textbookCipher = textbookBlock := by
  rw [desD, roundKeys_textbookKey,
    desBlock_reverse_eq_of_rounds applyTable_tableIP_textbookCipher feistelRounds_textbook,
    applyTable_tableFP_textbookBlock]

/-- R104's second table, as the halves after the first `n` rounds from `IP` of the block on. -/
theorem map_feistelRounds_textbook :
    let ip := applyTable 64 tableIP (toBlock textbookBlock)
    (List.range 17).map (fun n =>
      feistelRounds ((roundKeys (toBlock textbookKey)).take n) (leftHalf ip, rightHalf ip)) = textbookHalves := by
  simp only [applyTable_tableIP_textbookBlock, leftHalf_joinHalves, rightHalf_joinHalves, roundKeys_textbookKey]
  exact (map_feistelRounds_take textbookRoundKeys _).trans feistelHalves_textbook

/-! ### The second textbook vector (R104) -/

/-- The key is the first vector's block. -/
theorem desE_secondVector :
    desE textbookBlock [0x4E, 0x6F, 0x77, 0x20, 0x69, 0x73, 0x20, 0x74] =
      [0x3F, 0xA4, 0x0E, 0x8A, 0x98, 0x4D, 0x48, 0x15] := by decide +kernel

/-! ### The statement -/

/-- Settles O27: the two tables of R104 are computed once, and both ciphers of the first vector read off them. -/
theorem desTextbookVectors : Obligations.DesTextbookVectors :=
  ⟨desE_textbook, desD_textbook, desE_secondVector, roundKeys_textbookKey, map_feistelRounds_textbook,
    applyTable_tableFP_textbookCipher⟩

end Sys2Proof.Machine
end

section
/-! Proofs about the block cipher (41_block_cipher.md): the checks both block functions make, in their order (R113), and
`KEXP` (R112). -/

namespace Sys2Proof.Machine

/-! ### The two block functions as one, over the cipher -/

/-- A block function: the three checks of R113, and then the given cipher under the expanded key. -/
def checkedBlock (cipher : Bytes → Bytes → Bytes) (reject : Bytes → Bool) (key block : Bytes) :
    Except ErrorKind Bytes := do
  let k ← expandKey key
  require (block.length == Config.blockBytes) .invalidBlockLength
  require (!reject k) .cipherInitError
  return cipher k block

theorem encryptBlock_eq_checkedBlock (reject : Bytes → Bool) (key block : Bytes) :
    encryptBlock reject key block = checkedBlock tdesE reject key block := rfl

theorem decryptBlock_eq_checkedBlock (reject : Bytes → Bool) (key block : Bytes) :
    decryptBlock reject key block = checkedBlock tdesD reject key block := rfl

section
variable {cipher : Bytes → Bytes → Bytes} {reject : Bytes → Bool} {key block : Bytes}

/-- The first check: the key's length. -/
theorem checkedBlock_of_key_length (hkey : ¬ (key.length = 16 ∨ key.length = 24)) :
    checkedBlock cipher reject key block = .error .invalidKeyLength := by
  rw [checkedBlock, expandKey_eq, if_neg hkey]
  rfl

/-- Past the first check, the other two are made against the key's expansion. -/
theorem checkedBlock_of_legal_key (hkey : key.length = 16 ∨ key.length = 24) :
    checkedBlock cipher reject key block = (do
      require (block.length == 8) .invalidBlockLength
      require (!reject (tripleLength key)) .cipherInitError
      return cipher (tripleLength key) block) := by
  rw [checkedBlock, expandKey_eq, if_pos hkey]
  rfl

/-- The second check: the block's length. -/
theorem checkedBlock_of_block_length (hkey : key.length = 16 ∨ key.length = 24) (hblock : block.length ≠ 8) :
    checkedBlock cipher reject key block = .error .invalidBlockLength := by
  rw [checkedBlock_of_legal_key hkey, beq_false_of_ne hblock]
  rfl

/-- The third check: the expanded key's acceptance (R114). -/
theorem checkedBlock_of_rejected (hkey : key.length = 16 ∨ key.length = 24) (hblock : block.length = 8)
    (hreject : reject (tripleLength key) = true) :
    checkedBlock cipher reject key block = .error .cipherInitError := by
  rw [checkedBlock_of_legal_key hkey, hblock, hreject]
  rfl

/-- Past all three checks. -/
theorem checkedBlock_of_accepted (hkey : key.length = 16 ∨ key.length = 24) (hblock : block.length = 8)
    (haccept : reject (tripleLength key) = false) :
    checkedBlock cipher reject key block = .ok (cipher (tripleLength key) block) := by
  rw [checkedBlock_of_legal_key hkey, hblock, haccept]
  rfl

end

/-! ### The ciphers under an expanded key (R111) -/

theorem tdesE_tripleLength {key : Bytes} (hkey : key.length = 16 ∨ key.length = 24) (block : Bytes) :
    tdesE (tripleLength key) block = tdeaEncrypt key block :=
  tdesE_eq (tripleLength_length hkey) block

theorem tdesD_tripleLength {key : Bytes} (hkey : key.length = 16 ∨ key.length = 24) (block : Bytes) :
    tdesD (tripleLength key) block = tdeaDecrypt key block :=
  tdesD_eq (tripleLength_length hkey) block

@[simp] theorem tdeaEncrypt_length (key block : Bytes) : (tdeaEncrypt key block).length = 8 := desE_length _ _

@[simp] theorem tdeaDecrypt_length (key block : Bytes) : (tdeaDecrypt key block).length = 8 := desD_length _ _

/-! ### The expansion of a key of each legal length (R110) -/

theorem tripleLength_of_sixteen {key : Bytes} (h : key.length = 16) : tripleLength key = key ++ key.take 8 := if_pos h

theorem tripleLength_of_twentyFour {key : Bytes} (h : key.length = 24) : tripleLength key = key := if_neg (by omega)

/-! ### What a command reads and how it fails -/

/-- A buffer's value is the byte string it was loaded with (10_state.md R24). -/
theorem value_holding {v : Bytes} (n : BufIx) (h : v.length ≤ 24) : (State.holding [(n, v)]).value n = v := by
  change ((State.reset.writeBuffer n v).buf n).value = v
  rw [buf_writeBuffer_same, Buffer.value_ofValue _ h]

/-- A command fails with the code of its function's error. -/
theorem fails_of_commandFunction {i : Instr} {s : State} {e : ErrorKind}
    (h : commandFunction i s.rejectKey s.value = .error e) : Fails i s (e.code.setWidth 8) := by
  unfold Fails
  rw [exec_eq_finish, h]
  exact finish_error

/-! ### `KEXP` -/

theorem kexp_completes {s : State} {rs1 : BufIx} (rd : BufIx)
    (hkey : (s.value rs1).length = 16 ∨ (s.value rs1).length = 24) :
    Completes (.kexp rd rs1) s (tripleLength (s.value rs1)) :=
  completes_of_commandFunction ((expandKey_eq _).trans (if_pos hkey))

theorem kexp_fails {s : State} {rs1 : BufIx} (rd : BufIx)
    (hkey : ¬ ((s.value rs1).length = 16 ∨ (s.value rs1).length = 24)) : Fails (.kexp rd rs1) s 1 :=
  fails_of_commandFunction (e := .invalidKeyLength) ((expandKey_eq _).trans (if_neg hkey))

/-- `KEXP` of a buffer that was loaded with a legal key. -/
theorem kexp_holding_completes {key : Bytes} (rd rs1 : BufIx) (hkey : key.length = 16 ∨ key.length = 24) :
    Completes (.kexp rd rs1) (State.holding [(rs1, key)]) (tripleLength key) := by
  have hvalue : (State.holding [(rs1, key)]).value rs1 = key := value_holding rs1 (by omega)
  have h := kexp_completes (s := State.holding [(rs1, key)]) (rs1 := rs1) rd (by rwa [hvalue])
  rwa [hvalue] at h

/-! ### The statements -/

/-- Settles O32: each clause is what a block function answers whichever its cipher, and under an expanded key the two
ciphers are Triple-DES. -/
theorem blockFunctionsCheckInOrder : Obligations.BlockFunctionsCheckInOrder := by
  intro reject key block legalKey k
  rw [encryptBlock_eq_checkedBlock, decryptBlock_eq_checkedBlock]
  refine ⟨fun hkey => ?_, fun ⟨hkey, hblock⟩ => ?_, fun ⟨hkey, hblock, hreject⟩ => ?_,
    fun ⟨hkey, hblock, haccept⟩ => ?_⟩
  · exact ⟨checkedBlock_of_key_length hkey, checkedBlock_of_key_length hkey⟩
  · exact ⟨checkedBlock_of_block_length hkey hblock, checkedBlock_of_block_length hkey hblock⟩
  · exact ⟨checkedBlock_of_rejected hkey hblock hreject, checkedBlock_of_rejected hkey hblock hreject⟩
  · rw [checkedBlock_of_accepted hkey hblock haccept, checkedBlock_of_accepted hkey hblock haccept,
      tdesE_tripleLength hkey, tdesD_tripleLength hkey]
    exact ⟨rfl, tdeaEncrypt_length key block, rfl, tdeaDecrypt_length key block⟩

/-- Settles O33: the result of `KEXP` is the key's expansion, which R110 gives for each legal length; the example is a
16-byte key. -/
theorem kexpExpandsTheKey : Obligations.KexpExpandsTheKey := by
  intro s rd rs1
  refine ⟨packWord_eq_ofNat (by decide) rd rs1 0, fun h => ?_, fun h => ?_, fun h => kexp_fails rd (not_or.2 h), rfl,
    kexp_holding_completes 2 1 (.inl rfl)⟩
  · rw [← tripleLength_of_sixteen h]
    exact kexp_completes rd (.inl h)
  · have hexp := kexp_completes rd (.inr h)
    rwa [tripleLength_of_twentyFour h] at hexp

end Sys2Proof.Machine
end

section
/-! Proofs about the Byte Utilities (42_byte_utilities.md): the commands `XOR` (R131), `MSKI` (R135) and `MSKR` (R136). -/

namespace Sys2Proof.Machine

/-! ### Element-wise XOR, byte by byte (R130) -/

theorem getD_zipWith_xor {a b : Bytes} {j : Nat} (ha : j < a.length) (hb : j < b.length) :
    (List.zipWith (· ^^^ ·) a b).getD j 0 = a.getD j 0 ^^^ b.getD j 0 := by
  simp [ha, hb]

theorem zipWith_xor_self (a : Bytes) : List.zipWith (· ^^^ ·) a a = List.replicate a.length 0 := by
  simp [List.zipWith_self, List.map_const']

/-! ### The masks on what they have masked (R132, R134) -/

theorem ipekMasked_idem {ksn : Bytes} (h : 8 ≤ ksn.length) : ipekMasked (ipekMasked ksn) = ipekMasked ksn := by
  have hlen : (ksn.take 7).length = 7 := by simp; omega
  simp [ipekMasked, hlen, BitVec.and_assoc]

theorem roundMasked_idem {k8 : Bytes} (h : k8.length = 8) : roundMasked (roundMasked k8) = roundMasked k8 := by
  have hlen : (k8.take 5).length = 5 := by simp [h]
  simp [roundMasked, hlen, BitVec.and_assoc]

/-- The window of a 10-byte KSN leaves out its first two bytes (R133). -/
theorem ksnWindow_of_ten {ksn : Bytes} (h : ksn.length = 10) : ksnWindow ksn = ksn.drop 2 := by
  rw [ksnWindow, h]

theorem maskKsnForRound_of_length {ksn : Bytes} (h : ksn.length = 8 ∨ ksn.length = 10) :
    maskKsnForRound ksn = .ok (roundMasked (ksnWindow ksn)) :=
  (maskKsnForRound_eq ksn).trans (if_pos h)

/-- The round mask of a KSN is that of its window (R133). -/
theorem maskKsnForRound_ksnWindow {ksn : Bytes} (h : ksn.length = 8 ∨ ksn.length = 10) :
    maskKsnForRound (ksnWindow ksn) = maskKsnForRound ksn := by
  have hwindow := ksnWindow_length h
  rw [maskKsnForRound_of_length (.inl hwindow), maskKsnForRound_of_length h, ksnWindow_of_eight hwindow]

/-! ### The three commands, from the values of their sources -/

section
variable {s : State} {rs1 rs2 : BufIx} {a b ksn : Bytes} (rd : BufIx)

theorem xor_completes (ha : s.value rs1 = a) (hb : s.value rs2 = b) (h : a.length = b.length) :
    Completes (.xor rd rs1 rs2) s (List.zipWith (· ^^^ ·) a b) := by
  subst ha hb
  exact completes_of_commandFunction ((xorBytes_eq _ _).trans (if_pos h))

theorem xor_fails (h : (s.value rs1).length ≠ (s.value rs2).length) : Fails (.xor rd rs1 rs2) s 3 :=
  fails_of_commandFunction (e := .lengthMismatch) ((xorBytes_eq _ _).trans (if_neg h))

theorem mski_completes (hksn : s.value rs1 = ksn) (h : 8 ≤ ksn.length) :
    Completes (.mski rd rs1) s (ipekMasked ksn) := by
  subst hksn
  exact completes_of_commandFunction ((maskKsnForIpek_eq _).trans (if_pos h))

theorem mski_fails (h : (s.value rs1).length < 8) : Fails (.mski rd rs1) s 5 :=
  fails_of_commandFunction (e := .invalidKsnLength) ((maskKsnForIpek_eq _).trans (if_neg (by omega)))

theorem mskr_completes (hksn : s.value rs1 = ksn) (h : ksn.length = 8 ∨ ksn.length = 10) :
    Completes (.mskr rd rs1) s (roundMasked (ksnWindow ksn)) := by
  subst hksn
  exact completes_of_commandFunction (maskKsnForRound_of_length h)

theorem mskr_fails (h : ¬ ((s.value rs1).length = 8 ∨ (s.value rs1).length = 10)) : Fails (.mskr rd rs1) s 5 :=
  fails_of_commandFunction (e := .invalidKsnLength) ((maskKsnForRound_eq _).trans (if_neg h))

end

/-! ### Two loaded buffers -/

theorem value_holding_pair_left {v w : Bytes} {m n : BufIx} (hne : m ≠ n) (h : v.length ≤ 24) :
    (State.holding [(m, v), (n, w)]).value m = v := by
  change (((State.reset.writeBuffer m v).writeBuffer n w).buf m).value = v
  rw [buf_writeBuffer_ne _ _ _ _ hne, buf_writeBuffer_same, Buffer.value_ofValue _ h]

theorem value_holding_pair_right {v w : Bytes} {m n : BufIx} (h : w.length ≤ 24) :
    (State.holding [(m, v), (n, w)]).value n = w := by
  change (((State.reset.writeBuffer m v).writeBuffer n w).buf n).value = w
  rw [buf_writeBuffer_same, Buffer.value_ofValue _ h]

/-! ### The statements -/

/-- Settles O38: the result is the element-wise XOR, read byte by byte; a string with itself gives zero bytes. -/
theorem xorIsElementWise : Obligations.XorIsElementWise := by
  intro s rd rs1 rs2
  refine ⟨packWord_eq_ofNat (by decide) rd rs1 rs2, State.value_length_le s rs1, fun h => ?_, xor_fails rd, ?_,
    fun ⟨h1, h2⟩ => xor_completes rd h1 h2 rfl, rfl, ?_⟩
  · refine ⟨_, xor_completes rd rfl rfl h, by simp [h], fun j hj => ?_⟩
    obtain ⟨hj1, hj2⟩ := lt_min_iff.1 (List.length_zipWith ▸ hj)
    exact getD_zipWith_xor hj1 hj2
  · rw [← zipWith_xor_self]
    exact xor_completes rd rfl rfl rfl
  · exact xor_completes 3 (value_holding_pair_left (by decide) (by decide)) (value_holding_pair_right (by decide)) rfl

/-- Settles O40: the result is the IPEK mask of the source, which is idempotent; both examples are of 10 bytes. -/
theorem mskiMasksTheFirstEightBytes : Obligations.MskiMasksTheFirstEightBytes := by
  intro s rd rs1
  refine ⟨packWord_eq_ofNat (by decide) rd rs1 0, mski_completes rd rfl, mski_fails rd, fun ksn h => ?_, rfl,
    mski_completes 4 (value_holding 1 (by decide)) (by decide), mski_completes 4 (value_holding 1 (by decide)) (by decide)⟩
  rw [maskKsnForIpek_eq, if_pos (ipekMasked_length h).ge, ipekMasked_idem h]

/-- Settles O41: the result is the round mask of the source's window, and a masked window is its own window; the examples
are of 10, 8 and 10 bytes. -/
theorem mskrMasksTheWindow : Obligations.MskrMasksTheWindow := by
  intro s rd rs1
  refine ⟨packWord_eq_ofNat (by decide) rd rs1 0, mskr_completes rd rfl, fun h => mskr_fails rd (not_or.2 h),
    fun ksn h => ?_, fun ksn h => ?_, rfl, mskr_completes 5 (value_holding 1 (by decide)) (.inr rfl),
    mskr_completes 5 (value_holding 1 (by decide)) (.inl rfl), mskr_completes 5 (value_holding 1 (by decide)) (.inr rfl)⟩
  · rw [← maskKsnForRound_ksnWindow (.inr h), ksnWindow_of_ten h]
  · have hwindow := ksnWindow_length h
    have hmasked := roundMasked_length hwindow
    rw [maskKsnForRound_of_length (.inl hmasked), ksnWindow_of_eight hmasked, roundMasked_idem hwindow]

end Sys2Proof.Machine
end

section
/-! Proofs about the transaction counter of a KSN (44_session_key.md): the bytes and bits that hold it and the bits of device
identification around it (R156). -/

namespace Sys2Proof.Machine

/-! ### The counter as three bytes side by side (R156) -/

theorem setWidth_and_counterByte5And :
    ∀ x : Byte, (x &&& Config.counterByte5And).setWidth 21 = (x.setWidth 5).setWidth 21 := by
  decide

/-- The shifts and ORs of R156 put the low 5 bits of byte 5, byte 6 and byte 7 one after another. -/
theorem counter_eq_append (k : Bytes) : counter k = (byteAt k 5).setWidth 5 ++ byteAt k 6 ++ byteAt k 7 := by
  rw [counter, setWidth_and_counterByte5And, ← BitVec.setWidth_eq (_ ++ byteAt k 7),
    BitVec.setWidth_append_append_eq_shiftLeft_setWidth_or]

theorem toNat_append_eq_add {m n : Nat} (x : BitVec m) (y : BitVec n) :
    (x ++ y).toNat = x.toNat * 2 ^ n + y.toNat := by
  rw [← Nat.div_add_mod' (x ++ y).toNat (2 ^ n), toNat_append_div, toNat_append_mod]

theorem toNat_counter (k : Bytes) : (counter k).toNat = counterNat k := by
  rw [counter_eq_append, toNat_append_eq_add, toNat_append_eq_add, BitVec.toNat_setWidth, counterNat]
  simp only [byteAt]
  omega

theorem counterNat_le (k : Bytes) : counterNat k ≤ 0x1FFFFF := by
  rw [← toNat_counter]
  exact Nat.le_of_lt_succ (counter k).isLt

/-- Each row of the table of R156 is one of the three bytes. -/
theorem getLsbD_counter (k : Bytes) {n : Nat} (hn : n < 21) :
    (counter k).getLsbD n = (k.getD (7 - n / 8) 0).getLsbD (n % 8) := by
  rw [counter_eq_append, BitVec.getLsbD_append, BitVec.getLsbD_append]
  obtain ⟨hrow, hlow⟩ | ⟨hrow, hlow⟩ | ⟨hrow, hlow⟩ :
      n / 8 = 0 ∧ n % 8 = n ∨ n / 8 = 1 ∧ n % 8 = n - 8 ∨ n / 8 = 2 ∧ n % 8 = n - 8 - 8 := by omega
  · rw [if_pos (by omega), hrow, hlow, byteAt]
  · rw [if_neg (by omega), if_pos (by omega), hrow, hlow, byteAt]
  · rw [if_neg (by omega), if_neg (by omega), hrow, hlow, byteAt, BitVec.getLsbD_setWidth,
      decide_eq_true (by omega), Bool.true_and]

/-- The window moves each byte of a 10-byte KSN two places down (R133). -/
theorem getD_ksnWindow_of_ten {ksn : Bytes} (h : ksn.length = 10) (j : Nat) :
    (ksnWindow ksn).getD j 0 = ksn.getD (j + 2) 0 := by
  simp [ksnWindow_of_ten h, List.getD_eq_getElem?_getD, Nat.add_comm]

theorem selectKsn8_of_ten {ksn : Bytes} (h : ksn.length = 10) : selectKsn8 ksn = .ok (ksnWindow ksn) :=
  (selectKsn8_eq ksn).trans (if_pos (.inr h))

/-! ### Device identification is what the round mask keeps (R134, R156) -/

theorem roundMasked_eq_iff {w k : Bytes} (h : w.length = k.length) :
    roundMasked w = roundMasked k ↔ w.take 5 = k.take 5 ∧ w.getD 5 0 &&& 0xE0 = k.getD 5 0 &&& 0xE0 := by
  have htake : (w.take 5).length = (k.take 5).length := by simp [h]
  refine ⟨fun he => ?_, fun ⟨hfirst, hfifth⟩ => by rw [roundMasked, roundMasked, hfirst, hfifth]⟩
  obtain ⟨hfirst, hrest⟩ := List.append_inj he htake
  exact ⟨hfirst, (List.cons.inj hrest).1⟩

/-- The three operations of the engine on a KSN8 keep its length and, read through the round mask, leave it as it was. -/
theorem roundMasked_of_counterOperation {work w : Bytes} {n : Nat} (hl : work.length = 8) (hn : n < 21)
    (hw : w ∈ [setCounterBit work n, clearCounter work, roundMasked work]) :
    w.length = 8 ∧ roundMasked w = roundMasked work := by
  simp only [List.mem_cons, List.not_mem_nil, or_false] at hw
  obtain rfl | rfl | rfl := hw
  · exact ⟨(setCounterBit_length work n).trans hl, roundMasked_setCounterBit hl n hn⟩
  · exact ⟨(clearCounter_length work).trans hl, roundMasked_clearCounter hl⟩
  · exact ⟨roundMasked_length hl, roundMasked_idem hl⟩

/-! ### The statement -/

/-- Settles O48: the counter is three bytes side by side, a 10-byte KSN holds them two places further up, and the device
bits are those the round mask keeps. -/
theorem counterLayout : Obligations.CounterLayout := by
  refine ⟨fun k => ⟨toNat_counter k, counterNat_le k⟩, fun k n hn => getLsbD_counter k hn, fun ksn k n hl hn hk => ?_,
    fun work n hl hn w hw => ?_⟩
  · obtain rfl : ksnWindow ksn = k := Except.ok.inj ((selectKsn8_of_ten hl).symm.trans hk)
    have hbyte : 7 - n / 8 + 2 = 9 - n / 8 := by omega
    rw [getLsbD_counter _ hn, getD_ksnWindow_of_ten hl, hbyte]
  · obtain ⟨hlen, hmask⟩ := roundMasked_of_counterOperation hl hn hw
    exact ⟨hlen, (roundMasked_eq_iff (hlen.trans hl.symm)).1 hmask⟩

end Sys2Proof.Machine
end

section
/-! Proofs about how commands end (60_exceptions.md): every `H-ISSUE` completes its command or delivers one error (R190,
R191), and which command can end with which code (R187). -/

namespace Sys2Proof.Machine

/-! ### The codes of the errors (R186) -/

theorem code_range (e : ErrorKind) : 1 ≤ e.code.toNat ∧ e.code.toNat ≤ 6 := by
  cases e <;> decide

/-- Code 4 is `CipherInitError` and no other error. -/
theorem eq_cipherInitError_of_code {e : ErrorKind} (h : (e.code.setWidth 8 : Byte) = 4) : e = .cipherInitError := by
  revert h
  cases e <;> decide

/-! ### The errors a function can give -/

/-- The errors `r` can be are among `es`, and `CipherInitError` is one only where `RejectKey` rejects some key. -/
def FailsWithin {α : Type} (reject : Bytes → Bool) (es : List ErrorKind) (r : Except ErrorKind α) : Prop :=
  ∀ e, r = .error e → e ∈ es ∧ (e = .cipherInitError → ∃ k, reject k = true)

section
variable {α β : Type} {reject : Bytes → Bool} {es : List ErrorKind} {e : ErrorKind}

theorem failsWithin_ok (a : α) : FailsWithin reject es (.ok a) := nofun

/-- An error about a length needs no rejected key. -/
theorem failsWithin_lengthError (hmem : e ∈ es) (hne : e ≠ .cipherInitError) :
    FailsWithin reject es (.error e : Except ErrorKind α) := by
  rintro _ ⟨⟩
  exact ⟨hmem, fun h => absurd h hne⟩

theorem failsWithin_cipherInitError {k : Bytes} (hmem : .cipherInitError ∈ es) (hk : reject k = true) :
    FailsWithin reject es (.error .cipherInitError : Except ErrorKind α) := by
  rintro _ ⟨⟩
  exact ⟨hmem, fun _ => ⟨k, hk⟩⟩

/-- The errors of two computations in a row are the errors of each. -/
theorem FailsWithin.bind {x : Except ErrorKind α} {f : α → Except ErrorKind β} (hx : FailsWithin reject es x)
    (hf : ∀ a, FailsWithin reject es (f a)) : FailsWithin reject es (x >>= f) := by
  cases x with
  | error e => rintro _ ⟨⟩; exact hx e rfl
  | ok a => exact hf a

/-- A function that checks one length. -/
theorem failsWithin_ite {p : Prop} [Decidable p] (a : α) (hmem : e ∈ es) (hne : e ≠ .cipherInitError) :
    FailsWithin reject es (if p then .ok a else .error e) := by
  split
  · exact failsWithin_ok a
  · exact failsWithin_lengthError hmem hne

theorem failsWithin_require (c : Bool) (hmem : e ∈ es) (hne : e ≠ .cipherInitError) :
    FailsWithin reject es (require c e) :=
  failsWithin_ite () hmem hne

end

/-! ### The errors of each command's function (R187) -/

/-- The errors of the two block functions. -/
def blockErrors : List ErrorKind := [.invalidKeyLength, .invalidBlockLength, .cipherInitError]

/-- The errors of the three key derivations. -/
def derivationErrors : List ErrorKind := [.invalidKeyLength, .cipherInitError, .invalidKsnLength]

section
variable {reject : Bytes → Bool}

theorem checkedBlock_failsWithin (cipher : Bytes → Bytes → Bytes) (key block : Bytes) :
    FailsWithin reject blockErrors (checkedBlock cipher reject key block) := by
  by_cases hkey : key.length = 16 ∨ key.length = 24
  · by_cases hblock : block.length = 8
    · cases hreject : reject (tripleLength key) with
      | true =>
        rw [checkedBlock_of_rejected hkey hblock hreject]
        exact failsWithin_cipherInitError (by decide) hreject
      | false =>
        rw [checkedBlock_of_accepted hkey hblock hreject]
        exact failsWithin_ok _
    · rw [checkedBlock_of_block_length hkey hblock]
      exact failsWithin_lengthError (by decide) (by decide)
  · rw [checkedBlock_of_key_length hkey]
    exact failsWithin_lengthError (by decide) (by decide)

/-- On operands of legal lengths a fold's only error is that one of its two keys is rejected (43_ipek.md R146). -/
theorem foldKey_failsWithin {key block v : Bytes} (hkey : key.length = 16) (hblock : block.length = 8)
    (hv : v.length = 8) : FailsWithin reject derivationErrors (foldKey reject key block v) := by
  rw [foldKey_eq hkey hblock hv]
  split
  case isTrue hreject =>
    rcases Bool.or_eq_true_iff.1 hreject with h | h <;> exact failsWithin_cipherInitError (by decide) h
  case isFalse => exact failsWithin_ok _

theorem generateIpek_failsWithin (bdk ksn : Bytes) :
    FailsWithin reject derivationErrors (generateIpek reject bdk ksn) := by
  by_cases hkey : bdk.length = 16
  · rw [generateIpek, hkey, maskKsnForIpek_eq]
    split
    · exact foldKey_failsWithin hkey (ipekMasked_length ‹_›) rfl
    · exact failsWithin_lengthError (by decide) (by decide)
  · rw [generateIpek, Config.derivKeyBytes, beq_false_of_ne hkey]
    exact failsWithin_lengthError (by decide) (by decide)

theorem generateSessionKey_failsWithin (key ksn : Bytes) :
    FailsWithin reject derivationErrors (generateSessionKey reject key ksn) := by
  by_cases hkey : key.length = 16
  · rw [generateSessionKey, hkey, maskKsnForRound_eq]
    split
    · exact foldKey_failsWithin hkey (roundMasked_length (ksnWindow_length ‹_›)) rfl
    · exact failsWithin_lengthError (by decide) (by decide)
  · rw [generateSessionKey_of_key_length hkey]
    exact failsWithin_lengthError (by decide) (by decide)

/-- The chain fails only where one of its rounds does (44_session_key.md R159). -/
theorem chainRounds_failsWithin (c : BitVec 21) (shifts : List Nat) (work cur : Bytes) :
    FailsWithin reject derivationErrors (chainRounds reject c shifts work cur) := by
  induction shifts generalizing work cur with
  | nil => exact failsWithin_ok cur
  | cons shift rest ih =>
    rw [chainRounds]
    split
    · exact (generateSessionKey_failsWithin _ _).bind (ih _)
    · exact ih work cur

theorem deriveTransactionKey_failsWithin (ipek ksn : Bytes) :
    FailsWithin reject derivationErrors (deriveTransactionKey reject ipek ksn) := by
  rw [deriveTransactionKey, selectKsn8_eq]
  refine (failsWithin_require _ (by decide) (by decide)).bind fun _ => ?_
  refine (failsWithin_ite _ (by decide) (by decide)).bind fun k8 => ?_
  exact (chainRounds_failsWithin _ _ _ _).bind fun cur => generateSessionKey_failsWithin cur ksn

/-- The errors the table of R187 gives each command. -/
def commandErrors : Instr → List ErrorKind
  | .kexp .. => [.invalidKeyLength]
  | .tenc .. => blockErrors
  | .tdec .. => blockErrors
  | .xor .. => [.lengthMismatch]
  | .mski .. => [.invalidKsnLength]
  | .mskr .. => [.invalidKsnLength]
  | .ipek .. => derivationErrors
  | .skr .. => derivationErrors
  | .dtk .. => derivationErrors

theorem commandFunction_failsWithin (i : Instr) (value : BufIx → Bytes) :
    FailsWithin reject (commandErrors i) (commandFunction i reject value) := by
  cases i with
  | kexp rd a =>
    rw [commandFunction, expandKey_eq]
    exact failsWithin_ite _ (List.mem_singleton_self _) (by decide)
  | tenc rd a b => exact checkedBlock_failsWithin tdesE (value a) (value b)
  | tdec rd a b => exact checkedBlock_failsWithin tdesD (value a) (value b)
  | xor rd a b =>
    rw [commandFunction, xorBytes_eq]
    exact failsWithin_ite _ (List.mem_singleton_self _) (by decide)
  | mski rd a =>
    rw [commandFunction, maskKsnForIpek_eq]
    exact failsWithin_ite _ (List.mem_singleton_self _) (by decide)
  | mskr rd a =>
    rw [commandFunction, maskKsnForRound_eq]
    exact failsWithin_ite _ (List.mem_singleton_self _) (by decide)
  | ipek rd a b => exact generateIpek_failsWithin (value a) (value b)
  | skr rd a b => exact generateSessionKey_failsWithin (value a) (value b)
  | dtk rd a b => exact deriveTransactionKey_failsWithin (value a) (value b)

end

/-! ### The code a command ends with -/

/-- The code in `STATUS` once a command has ended with the function result `r` (R190, R191). -/
def resultCode : Except ErrorKind Bytes → Byte
  | .ok _ => 0
  | .error e => e.code.setWidth 8

theorem exec_ends_with_resultCode (i : Instr) (s : State) :
    ∃ t, exec i s = .next t ∧ t.status = resultCode (commandFunction i s.rejectKey s.value) := by
  rw [exec_eq_finish]
  cases commandFunction i s.rejectKey s.value <;> exact ⟨_, rfl, rfl⟩

/-- The codes the table of R187 gives each command, that of success among them. -/
def commandCodes (i : Instr) : List Byte := 0 :: (commandErrors i).map fun e => e.code.setWidth 8

theorem resultCode_mem_commandCodes {i : Instr} {reject : Bytes → Bool} {r : Except ErrorKind Bytes}
    (h : FailsWithin reject (commandErrors i) r) :
    resultCode r ∈ commandCodes i ∧ (resultCode r = 4 → ∃ k, reject k = true) := by
  cases r with
  | ok v => exact ⟨List.mem_cons_self, fun h4 => absurd h4 (by simp [resultCode])⟩
  | error e =>
    obtain ⟨hmem, hreject⟩ := h e rfl
    exact ⟨List.mem_cons_of_mem _ (List.mem_map_of_mem hmem), fun h4 => hreject (eq_cipherInitError_of_code h4)⟩

/-! ### Every code of the table is reached -/

/-- After reset, `m` zero bytes in `b1` and `n` in `b2`, under a `RejectKey` that rejects the given keys. -/
def zerosHolding (m n : Nat) (rejected : List Bytes) : State :=
  { State.holding [(1, List.replicate m 0), (2, List.replicate n 0)] with rejectedKeys := rejected }

/-- A legal key with a legal block or KSN, then with one of no bytes, then under a `RejectKey` that rejects it; no key
with a legal block or KSN; and two byte strings of 8. -/
def codeWitnesses : List State :=
  [zerosHolding 16 8 [], zerosHolding 16 0 [], zerosHolding 16 8 [List.replicate 24 0], zerosHolding 0 8 [],
    zerosHolding 8 8 []]

/-- The code is read off the form of a result and not off its bytes, so no cipher is computed. -/
theorem commandCodes_reached :
    ∀ i ∈ [Instr.kexp 3 1, .tenc 3 1 2, .tdec 3 1 2, .xor 3 1 2, .mski 3 1, .mskr 3 1, .ipek 3 1 2, .skr 3 1 2,
        .dtk 3 1 2],
      ∀ c ∈ commandCodes i, ∃ s ∈ codeWitnesses, resultCode (commandFunction i s.rejectKey s.value) = c := by
  decide +kernel

/-! ### The statements -/

/-- Settles O20: an `H-ISSUE` completes its command with a value that fits in a buffer or delivers one error, and error
delivery is one operation. -/
theorem commandsCompleteOrFail : Obligations.CommandsCompleteOrFail := by
  intro w s
  have hdelivery (e : ErrorKind) :
      1 ≤ e.code.toNat ∧ e.code.toNat ≤ 6 ∧ FailsWith s (raiseError e s) (e.code.setWidth 8) :=
    ⟨(code_range e).1, (code_range e).2, raiseError_fails e s⟩
  rcases issue_cases w s with ⟨i, v, hdecode, hvalue, h⟩ | ⟨i, e, -, -, h⟩ | ⟨x, -, h⟩
  · have hlen := commandFunction_length hvalue
    exact ⟨_, h, .inl ⟨i, v, hdecode, hlen, complete_completes i.dest v s hlen⟩, hdelivery⟩
  · exact ⟨_, h, .inr ⟨e, rfl⟩, hdelivery⟩
  · exact ⟨_, h, .inr ⟨.illegalCommand, rfl⟩, hdelivery⟩

/-- Settles O24: the code a command ends with is that of its function's result, whose errors are those of the table; five
states reach every code. -/
theorem errorCodesOfEachCommand : Obligations.ErrorCodesOfEachCommand := by
  unfold Obligations.ErrorCodesOfEachCommand
  intro codes
  have hcodes (i : Instr) : codes i = commandCodes i := by cases i <;> rfl
  refine ⟨fun i s t h => ?_, fun i hi c hc => ?_⟩
  · obtain ⟨t', hexec, hstatus⟩ := exec_ends_with_resultCode i s
    cases h.symm.trans hexec
    rw [hcodes, hstatus]
    exact resultCode_mem_commandCodes (commandFunction_failsWithin i s.value)
  · obtain ⟨s, -, hcode⟩ := commandCodes_reached i hi c (hcodes i ▸ hc)
    obtain ⟨t, hexec, hstatus⟩ := exec_ends_with_resultCode i s
    exact ⟨s, t, hexec, hstatus.trans hcode⟩

end Sys2Proof.Machine
end

section
/-! Proofs about hazards (70_reset_and_hazards.md): what a command leaves unchanged, seen through the operand space, and that
its destination is not among what it reads (R224). -/

namespace Sys2Proof.Machine

/-! ### The buffer behind an address -/

theorem toNat_windowAddr_div (n : BufIx) {j : Nat} (hj : j < 32) : (windowAddr n j).toNat / 32 = n.val := by
  simp only [windowAddr, BitVec.toNat_ofNat]
  omega

/-- Only the address of `STATUS` leads to it (20_memory.md R51). -/
theorem eq_of_locate_status {a : PortAddr} (h : locate a = .status) : a = statusAddr := by
  revert a
  decide

/-- A read at any address but that of `STATUS` looks at no buffer but the one whose window the address is in. -/
theorem memRead_congr_window {a : PortAddr} {s t : State} (hstatus : a ≠ statusAddr)
    (h : ∀ n : BufIx, a.toNat / 32 = n.val → t.buf n = s.buf n) : memRead a t = memRead a s := by
  unfold memRead
  cases ha : locate a with
  | data n j =>
    have hn : a.toNat / 32 = n.val := by rw [eq_of_locate_data ha, toNat_windowAddr_div n (by omega)]
    simp only [h n hn]
  | len n =>
    have hn : a.toNat / 32 = n.val := by rw [eq_of_locate_len ha, lenAddr, toNat_windowAddr_div n (by decide)]
    simp only [h n hn]
  | status => exact absurd (eq_of_locate_status ha) hstatus
  | reserved => rfl

/-! ### The destination of a command -/

theorem buf_complete_ne {rd n : BufIx} (v : Bytes) (s : State) (h : n ≠ rd) : (complete rd v s).buf n = s.buf n :=
  buf_writeBuffer_ne s rd n v h

@[simp] theorem dest_withDest (i : Instr) (rd : BufIx) : (i.withDest rd).dest = rd := by
  cases i <;> rfl

/-- What a command computes does not depend on where it writes it (10_state.md R24). -/
@[simp] theorem commandFunction_withDest (i : Instr) (rd : BufIx) (reject : Bytes → Bool) (value : BufIx → Bytes) :
    commandFunction (i.withDest rd) reject value = commandFunction i reject value := by
  cases i <;> rfl

theorem exec_withDest (i : Instr) (rd : BufIx) (s : State) :
    exec (i.withDest rd) s = finish rd (commandFunction i s.rejectKey s.value) s := by
  rw [exec_eq_finish, dest_withDest, commandFunction_withDest]

/-! ### The statement -/

/-- Settles O21: with any destination the command ends with the one result of its function; a value replaces the destination
buffer only, an error no buffer, and a read of an unchanged buffer's window is unchanged. -/
theorem commandsWriteOnlyTheDestination : Obligations.CommandsWriteOnlyTheDestination := by
  intro i s t h
  rw [exec_eq_finish] at h
  simp only [exec_withDest]
  cases hresult : commandFunction i s.rejectKey s.value with
  | ok v =>
    rw [hresult] at h
    cases h
    have hframe (n : BufIx) (hn : n ≠ i.dest) : (complete i.dest v s).buf n = s.buf n := buf_complete_ne v s hn
    refine ⟨hframe, fun a hwindow ha => memRead_congr_window ha fun n hn => hframe n ?_,
      fun hfailed => absurd rfl hfailed, fun rd => ⟨_, rfl, rfl, fun _ => ?_⟩, rfl, rfl⟩
    · rintro rfl
      exact hwindow hn
    · rw [buf_complete_same, buf_complete_same]
  | error e =>
    rw [hresult] at h
    cases h
    have hread (a : PortAddr) (ha : a ≠ 0x100) : memRead a (raiseError e s) = memRead a s :=
      memRead_congr_window ha fun _ _ => rfl
    exact ⟨fun _ _ => rfl, fun a _ => hread a, fun _ => hread,
      fun _ => ⟨_, rfl, rfl, fun hok => absurd hok (code_ne_zero e)⟩, rfl, rfl⟩

end Sys2Proof.Machine
end

section
/-! Proofs about the encoding (30_encoding.md section 3): decoding and encoding are inverse to each other on the legal
words, and the words of 95_test_vectors.md section 2.1. -/

namespace Sys2Proof.Machine

/-! ### The statements -/

/-- Settles O1: the fields of the packed word are the operands it was packed from, row by row. -/
theorem decodeOfEncodeIsTheCommand : Obligations.DecodeOfEncodeIsTheCommand :=
  fun i _ => decode_encode i

/-- Settles O2: a word decodes to the command whose word it is, and to no other. -/
theorem encodeOfDecodeIsTheWord : Obligations.EncodeOfDecodeIsTheWord :=
  fun w i h => (decode_eq_ok_iff w i).1 h

/-- Settles O5: the legal words are computed, and each illegal one fails one of the checks of R74. -/
theorem specWordsDecode : Obligations.SpecWordsDecode := by
  refine ⟨rfl, rfl, rfl, rfl, rfl, rfl, rfl, rfl, rfl, rfl, rfl, rfl, fun w hw i hi => ?_⟩
  have hillegal : ([0x0000, 0x0FF8, 0xA000, 0xF000, 0xFFFF, 0x2651, 0x2654, 0x1447, 0x1448, 0x5878, 0x6A48] :
      List CommandWord).all (fun w => !wordWellFormed w) = true := by decide +kernel
  have hlegal : wordWellFormed w = true := (wordWellFormed_iff_exists_decode w).2 ⟨i, hi⟩
  simpa [hlegal] using List.all_eq_true.1 hillegal w hw

end Sys2Proof.Machine
end

section
/-! Proofs about steps and host transactions (10_state.md section 5, 70_reset_and_hazards.md sections 1 and 4): what one step
does for each host action, that it always goes on, and that it keeps a legal state legal (20_memory.md section 2). -/

namespace Sys2Proof.Machine

/-! ### The host's side of the port -/

theorem setLen_withPending (n : BufIx) (v : Byte) (s : State) (rest : List HostAction) :
    State.setLen { s with pending := rest } n v = { s.setLen n v with pending := rest } := by
  unfold State.setLen
  split <;> rfl

/-- A port write does not look at the pending actions. -/
theorem memWrite_withPending (a : PortAddr) (v : Byte) (s : State) (rest : List HostAction) :
    memWrite a v { s with pending := rest } = { memWrite a v s with pending := rest } := by
  unfold memWrite
  cases locate a with
  | data n j => rfl
  | len n => exact setLen_withPending n v s rest
  | status => rfl
  | reserved => rfl

theorem step_of_idle {s : State} (h : s.pending = []) : step s = .next s := by
  rw [step, h]

theorem step_of_issue {s : State} {w : CommandWord} {rest : List HostAction} {i : Instr}
    (hpending : s.pending = .issue w :: rest) (hdecode : decode w = .ok i) :
    step s = exec i { s with pending := rest } := by
  rw [step_of_pending hpending, perform, issue_of_decode_ok hdecode, exec_eq_finish]

/-- What a step with an action pending does to the host's side of the port: it takes the action off the list and records one
entry, or none for a reset. -/
theorem step_goes {s : State} {a : HostAction} {rest : List HostAction} (h : s.pending = a :: rest) :
    ∃ t, step s = .next t ∧ t.pending = rest ∧ t.rejectedKeys = s.rejectedKeys ∧
      (a = .reset ∧ t.returned = s.returned ∨ a ≠ .reset ∧ ∃ r, t.returned = s.returned ++ [r]) := by
  rw [step_of_pending h]
  exact perform_goes a _

/-! ### Legal states -/

/-- The length of a byte string that fits is what `LEN` holds once it was written (10_state.md R24). -/
theorem toNat_len_ofValue {v : Bytes} (h : v.length ≤ 24) : (Buffer.ofValue v).len.toNat = v.length := by
  simp only [Buffer.ofValue, BitVec.toNat_ofNat]
  omega

theorem inv_reset : State.reset.Inv :=
  ⟨fun n => by simp, by decide⟩

theorem inv_resetEngine (s : State) : (resetEngine s).Inv :=
  ⟨fun n => by simp, by simp⟩

/-- No port write leaves an illegal `LEN` (20_memory.md R54). -/
theorem inv_memWrite {s : State} (h : s.Inv) (a : PortAddr) (v : Byte) : (memWrite a v s).Inv := by
  obtain ⟨hlen, hcode⟩ := h
  obtain ⟨hstatus, -, -, -⟩ := memWrite_keeps a v s
  refine ⟨fun m => ?_, hstatus ▸ hcode⟩
  rcases memWrite_cases a v s with ⟨n, j, -, hwrite⟩ | ⟨n, -, hwrite⟩ | ⟨-, hwrite⟩ <;> rw [hwrite]
  · by_cases hm : m = n
    · subst hm
      rw [len_setData]
      exact hlen m
    · rw [buf_setData_ne _ _ _ _ _ hm]
      exact hlen m
  · exact len_setLen_le n v hlen m
  · exact hlen m

theorem inv_raiseError {s : State} (h : s.Inv) (e : ErrorKind) : (raiseError e s).Inv :=
  ⟨h.1, code_le_six e⟩

theorem inv_complete {s : State} (h : s.Inv) (rd : BufIx) {v : Bytes} (hv : v.length ≤ 24) : (complete rd v s).Inv := by
  refine ⟨fun n => ?_, Nat.zero_le 6⟩
  by_cases hn : n = rd
  · subst hn
    rw [buf_complete_same, toNat_len_ofValue hv]
    exact hv
  · rw [buf_complete_ne v s hn]
    exact h.1 n

/-- An `H-ISSUE` keeps a legal state legal, however it ends. -/
theorem inv_issue {s t : State} (h : s.Inv) {w : CommandWord} (ht : issue w s = .next t) : t.Inv := by
  rcases issue_cases w s with ⟨i, v, -, hvalue, hend⟩ | ⟨i, e, -, -, hend⟩ | ⟨x, -, hend⟩ <;>
    cases ht.symm.trans hend
  · exact inv_complete h i.dest (commandFunction_length hvalue)
  · exact inv_raiseError h e
  · exact inv_raiseError h .illegalCommand

/-- Every host action keeps a legal state legal. -/
theorem inv_perform {s t : State} (h : s.Inv) {a : HostAction} (ht : perform a s = .next t) : t.Inv := by
  cases a with
  | write addr v => cases ht; exact inv_memWrite h addr v
  | read addr => cases ht; exact h
  | issue w => exact inv_issue h ht
  | reset => cases ht; exact inv_resetEngine s
  | issueCutByReset w => cases ht; exact inv_resetEngine s

/-! ### The reset state's commands -/

theorem xor_reset_completes (rd rs1 rs2 : BufIx) : Completes (.xor rd rs1 rs2) State.reset [] :=
  xor_completes rd (value_reset rs1) (value_reset rs2) rfl

/-- In the reset state a command's function is that of empty operands. -/
theorem commandFunction_reset (i : Instr) :
    commandFunction i State.reset.rejectKey State.reset.value = commandFunction i State.reset.rejectKey fun _ => [] :=
  commandFunction_congr _ fun n _ => value_reset n

theorem fails_reset {i : Instr} {e : ErrorKind}
    (h : commandFunction i State.reset.rejectKey (fun _ => []) = .error e) : Fails i State.reset (e.code.setWidth 8) :=
  fails_of_commandFunction ((commandFunction_reset i).trans h)

/-! ### The statements -/

/-- Settles O25: the one action a step performs keeps every `LEN` and `STATUS` in their ranges, whichever it is. -/
theorem stepKeepsLegalStates : Obligations.StepKeepsLegalStates := by
  intro s t hinv hstep
  cases hpending : s.pending with
  | nil => cases (step_of_idle hpending).symm.trans hstep; exact hinv
  | cons a rest =>
    rw [step_of_pending hpending] at hstep
    exact inv_perform (s := { s with pending := rest }) hinv hstep

/-- Settles O26. -/
theorem resetStateIsLegal : Obligations.ResetStateIsLegal := inv_reset

/-- Settles O9: with no action pending nothing changes, and otherwise the oldest one goes on. -/
theorem everyStepGoesOn : Obligations.EveryStepGoesOn := by
  intro s
  cases hpending : s.pending with
  | nil => exact ⟨s, step_of_idle hpending, hpending, rfl, .inl rfl⟩
  | cons a rest =>
    obtain ⟨t, hstep, hrest, hkeys, hreturned⟩ := step_goes hpending
    exact ⟨t, hstep, hrest, hkeys, hreturned.imp And.right And.right⟩

/-- Settles O10, by induction on the pending actions. -/
theorem allPendingActionsArePerformed : Obligations.AllPendingActionsArePerformed := by
  intro s
  generalize hpending : s.pending = acts
  induction acts generalizing s with
  | nil => exact ⟨s, rfl, hpending, by simp⟩
  | cons a rest ih =>
    obtain ⟨u, hstep, hrest, -, hreturned⟩ := step_goes hpending
    obtain ⟨t, hrun, hnone, hcount⟩ := ih u hrest
    refine ⟨t, (run_of_step _ hstep).trans hrun, hnone, ?_⟩
    rcases hreturned with ⟨rfl, hsame⟩ | ⟨hne, r, hone⟩
    · simp [hcount, hsame]
    · simp [hcount, hone, hne]
      omega

/-- Settles O7. -/
theorem stepRunsTheDecodedCommand : Obligations.StepRunsTheDecodedCommand :=
  fun _ _ _ _ hpending hdecode _ => step_of_issue hpending hdecode

/-- Settles O8: a read and a write touch, besides the operand space, only the host's side of the port. -/
theorem readAndWriteTransactionsStep : Obligations.ReadAndWriteTransactionsStep := by
  intro s a v rest
  refine ⟨step_of_idle, fun hpending => ?_, fun hpending => ?_⟩
  · have hsame : memRead a { s with pending := rest } = memRead a s := memRead_congr rfl rfl a
    rw [step_of_pending hpending, perform, hsame]
    rfl
  · obtain ⟨-, -, -, hreturned⟩ := memWrite_keeps a v s
    rw [step_of_pending hpending, perform, memWrite_withPending, State.answer, ← hreturned]

/-- Settles O11: the buffers and `STATUS` are those of the reset state, and the idle engine stays as it is. -/
theorem resetActionClearsTheEngine : Obligations.ResetActionClearsTheEngine := by
  intro s rest hpending
  refine ⟨_, step_of_pending hpending, fun n => ?_, rfl, rfl, rfl, rfl, fun hnone => step_of_idle hnone⟩
  rw [buf_resetEngine]
  exact ⟨len_reset, data_reset⟩

/-- Settles O12: the step is a reset of the engine and one empty entry in the record. -/
theorem resetAbandonsTheCommand : Obligations.ResetAbandonsTheCommand :=
  fun _ _ _ hpending => ⟨_, step_of_pending hpending, rfl, rfl, rfl, rfl, rfl⟩

/-- Settles O14: every function's first check is that of a length, which no empty operand passes. -/
theorem afterResetOnlyXorSucceeds : Obligations.AfterResetOnlyXorSucceeds := by
  intro rd rs1 rs2
  exact ⟨fails_reset (e := .invalidKeyLength) rfl, fails_reset (e := .invalidKeyLength) rfl,
    fails_reset (e := .invalidKeyLength) rfl, fails_reset (e := .invalidKsnLength) rfl,
    fails_reset (e := .invalidKsnLength) rfl, fails_reset (e := .invalidKeyLength) rfl,
    fails_reset (e := .invalidKeyLength) rfl, fails_reset (e := .invalidKeyLength) rfl, xor_reset_completes rd rs1 rs2⟩

end Sys2Proof.Machine
end

section
/-! Proofs about the operand space as the host uses it (20_memory.md sections 2 and 3, 30_encoding.md section 5): reading after
a write, and the `LOAD` directive. -/

namespace Sys2Proof.Machine

/-! ### Which address leads where -/

theorem toNat_windowAddr (n : BufIx) {j : Nat} (hj : j < 32) : (windowAddr n j).toNat = n.val * 32 + j := by
  simp only [windowAddr, BitVec.toNat_ofNat]
  omega

/-- `STATUS` and the reserved addresses are those outside every window's `DATA` and `LEN` (20_memory.md R51). -/
theorem not_writable_of_locate {a : PortAddr} (h : locate a = .status ∨ locate a = .reserved) :
    ¬ (a.toNat < 256 ∧ a.toNat % 32 ≤ 24) := by
  rintro ⟨hwindow, hoffset⟩
  unfold locate at h
  rw [dif_pos (by omega)] at h
  split at h
  · simp at h
  · rw [if_pos (by omega)] at h
    simp at h

/-! ### A read after a write -/

theorem memRead_setData_same (s : State) (n : BufIx) (j : Fin 24) (v : Byte) :
    memRead (windowAddr n j.val) (s.setData n j v) = v := by
  rw [memRead_windowAddr, data_setData_same]

/-- Storing a `DATA` byte is seen at its own address only. -/
theorem memRead_setData_ne (s : State) {n : BufIx} {j : Fin 24} (v : Byte) {b : PortAddr}
    (hb : b ≠ windowAddr n j.val) : memRead b (s.setData n j v) = memRead b s := by
  unfold memRead
  cases hlocate : locate b with
  | data m k =>
    by_cases hm : m = n
    · subst hm
      have hk : k ≠ j := by rintro rfl; exact hb (eq_of_locate_data hlocate)
      exact data_setData_ne s m j k v hk
    · simp only [buf_setData_ne s n m j v hm]
  | len m =>
    by_cases hm : m = n
    · subst hm
      simp only [len_setData]
    · simp only [buf_setData_ne s n m j v hm]
  | status => rfl
  | reserved => rfl

theorem status_setLen (s : State) (n : BufIx) (v : Byte) : (s.setLen n v).status = s.status := by
  unfold State.setLen
  split <;> rfl

/-- A `LEN` write is seen at its own address only. -/
theorem memRead_setLen_ne (s : State) {n : BufIx} (v : Byte) {b : PortAddr} (hb : b ≠ lenAddr n) :
    memRead b (s.setLen n v) = memRead b s := by
  unfold memRead
  cases hlocate : locate b with
  | data m k => simp only [data_setLen]
  | len m =>
    have hm : m ≠ n := by rintro rfl; exact hb (eq_of_locate_len hlocate)
    simp only [buf_setLen_ne s v hm]
  | status => simp only [State.statusValue, State.err, status_setLen]
  | reserved => rfl

/-- A write is seen at the written address only (20_memory.md R53). -/
theorem memRead_memWrite_ne (s : State) (v : Byte) {a b : PortAddr} (hb : b ≠ a) :
    memRead b (memWrite a v s) = memRead b s := by
  rcases memWrite_cases a v s with ⟨n, j, ha, hwrite⟩ | ⟨n, ha, hwrite⟩ | ⟨-, hwrite⟩ <;> rw [hwrite]
  · exact memRead_setData_ne s v (eq_of_locate_data ha ▸ hb)
  · exact memRead_setLen_ne s v (eq_of_locate_len ha ▸ hb)

/-- At the written address a read gives the byte where the write was taken, and what it gave before where it was not
(20_memory.md R53, R54). -/
theorem memRead_memWrite_same (s : State) (a : PortAddr) (v : Byte) :
    memRead a (memWrite a v s) =
      if a.toNat < 256 ∧ (a.toNat % 32 < 24 ∨ a.toNat % 32 = 24 ∧ v.toNat ≤ 24) then v else memRead a s := by
  rcases memWrite_cases a v s with ⟨n, j, ha, hwrite⟩ | ⟨n, ha, hwrite⟩ | ⟨ha, hwrite⟩ <;> rw [hwrite]
  · obtain rfl := eq_of_locate_data ha
    have haddr : (windowAddr n j.val).toNat = n.val * 32 + j.val := toNat_windowAddr n (by omega)
    rw [if_pos (by omega), memRead_setData_same]
  · obtain rfl := eq_of_locate_len ha
    have haddr : (lenAddr n).toNat = n.val * 32 + 24 := toNat_windowAddr n (by omega)
    rcases Nat.lt_or_ge 24 v.toNat with hv | hv
    · rw [if_neg (by omega), setLen_of_gt _ _ _ hv]
    · rw [if_pos (by omega)]
      exact BitVec.eq_of_toNat_eq ((toNat_memRead_lenAddr n _).trans (toNat_len_setLen_of_le s n hv))
  · have hignored := not_writable_of_locate ha
    rw [if_neg (by omega)]

/-! ### The writes of a `LOAD` -/

/-- `t` is `s` with the bytes stored in buffer `n` from `DATA[j]` on, and no other buffer, no `LEN` and no `STATUS`
changed. -/
def StoredFrom (n : BufIx) (j : Nat) (bytes : Bytes) (s t : State) : Prop :=
  (∀ i : Fin 24, (t.buf n).data[i] =
    if j ≤ i.val ∧ i.val < j + bytes.length then bytes.getD (i.val - j) 0 else (s.buf n).data[i]) ∧
  (∀ m : BufIx, m ≠ n → t.buf m = s.buf m) ∧ t.status = s.status

theorem storedFrom_nil (n : BufIx) (j : Nat) (s : State) : StoredFrom n j [] s s :=
  ⟨fun i => (if_neg (by simp)).symm, fun _ _ => rfl, rfl⟩

/-- The lowest byte is stored first. -/
theorem storedFrom_cons {n : BufIx} {j : Fin 24} {v : Byte} {bytes : Bytes} {s t : State}
    (h : StoredFrom n (j.val + 1) bytes (s.setData n j v) t) : StoredFrom n j.val (v :: bytes) s t := by
  obtain ⟨hdata, hother, hstatus⟩ := h
  refine ⟨fun i => ?_, fun m hm => (hother m hm).trans (buf_setData_ne s n m j v hm), hstatus⟩
  rw [hdata, List.length_cons]
  rcases Nat.lt_trichotomy i.val j.val with hi | hi | hi
  · rw [if_neg (by omega), if_neg (by omega), data_setData_ne s n j i v (Fin.ne_of_lt hi)]
  · obtain rfl := Fin.ext hi
    rw [if_neg (by omega), if_pos (by omega), data_setData_same, Nat.sub_self, List.getD_cons_zero]
  · have hsub : i.val - j.val = i.val - (j.val + 1) + 1 := by omega
    rw [data_setData_ne s n j i v (Fin.ne_of_gt hi), hsub, List.getD_cons_succ]
    exact if_congr (by omega) rfl rfl

/-- A step that performs a port write. -/
theorem step_of_write {s : State} {a : PortAddr} {v : Byte} {rest : List HostAction}
    (h : s.pending = .write a v :: rest) :
    step s = .next { memWrite a v s with pending := rest, returned := s.returned ++ [none] } :=
  (readAndWriteTransactionsStep s a v rest).2.2 h

/-- The data writes of a `LOAD`, performed in order. -/
theorem run_loadWrites (n : BufIx) (bytes : Bytes) (j : Nat) (hj : j + bytes.length ≤ 24) (s : State)
    (rest : List HostAction) (h : s.pending = loadWrites n j bytes ++ rest) (k : Nat) :
    ∃ t : State, Host.Core.run Sys2Proof.core (bytes.length + k) s = Host.Core.run Sys2Proof.core k t ∧
      StoredFrom n j bytes s t ∧ t.pending = rest ∧ t.returned = s.returned ++ List.replicate bytes.length none := by
  induction bytes generalizing j s with
  | nil => exact ⟨s, by rw [List.length_nil, Nat.zero_add], storedFrom_nil n j s, h, by simp⟩
  | cons v bytes ih =>
    rw [List.length_cons] at hj
    obtain ⟨j, rfl⟩ : ∃ i : Fin 24, i.val = j := ⟨⟨j, by omega⟩, rfl⟩
    have hstep := step_of_write (rest := loadWrites n (j.val + 1) bytes ++ rest) h
    rw [dataAddr, memWrite_windowAddr] at hstep
    obtain ⟨t, hrun, hstored, hpending, hreturned⟩ := ih (j.val + 1) (by omega)
      { s.setData n j v with
        pending := loadWrites n (j.val + 1) bytes ++ rest, returned := s.returned ++ [none] } rfl
    refine ⟨t, ?_, storedFrom_cons hstored, hpending, ?_⟩
    · rw [List.length_cons, Nat.add_right_comm, run_of_step _ hstep, hrun]
    · rw [hreturned, List.append_assoc, List.length_cons, List.replicate_succ, List.singleton_append]

/-- The stored bytes are the first bytes of the buffer. -/
theorem take_data_of_storedFrom {n : BufIx} {bytes : Bytes} {s t : State} (hlen : bytes.length ≤ 24)
    (h : StoredFrom n 0 bytes s t) : (t.buf n).data.toList.take bytes.length = bytes := by
  obtain ⟨hdata, -, -⟩ := h
  apply List.ext_getElem
  · simpa using hlen
  · intro i _ hi
    have hbyte := hdata ⟨i, by omega⟩
    rw [if_pos (by simp; omega)] at hbyte
    simpa [hi] using hbyte

/-! ### The statements -/

/-- Settles O18: at the written address the write is seen where it was taken, and nowhere else. -/
theorem readAfterWrite : Obligations.ReadAfterWrite := by
  intro s a b v
  by_cases hb : b = a
  · subst hb
    simp only [true_and]
    exact memRead_memWrite_same s b v
  · rw [if_neg fun h => hb h.1, memRead_memWrite_ne s v hb]

/-- Settles O19: the data writes store the bytes from `DATA[0]` on, and the `LEN` write, which is of at most 24 and so taken,
exposes exactly them. -/
theorem loadDirectiveSetsTheValue : Obligations.LoadDirectiveSetsTheValue := by
  intro s n hex acts rest hacts hpending
  unfold loadActions at hacts
  split at hacts
  case isFalse => cases hacts
  case isTrue hlen =>
    obtain rfl := Option.some.inj hacts
    rw [List.append_assoc] at hpending
    obtain ⟨t, hrun, hstored, htail, hreturned⟩ := run_loadWrites n hex 0 (by omega) s _ hpending 1
    have hstep := step_of_write htail
    rw [memWrite_lenAddr] at hstep
    have hv : (BitVec.ofNat 8 hex.length).toNat = hex.length := by simp only [BitVec.toNat_ofNat]; omega
    have hvalue : (t.setLen n (BitVec.ofNat 8 hex.length)).value n = hex := by
      rw [value_setLen_of_le t n (by omega), hv]
      exact take_data_of_storedFrom hlen hstored
    obtain ⟨hdata, hother, hstatus⟩ := hstored
    refine ⟨_, (hrun.trans (run_of_step 0 hstep)).trans (run_zero _), hvalue, fun j hj => ?_, fun m hm => ?_,
      (status_setLen t n _).trans hstatus, rfl, ?_⟩
    · exact (congrArg (·[j]) (data_setLen t n n _)).trans ((hdata j).trans (if_neg (by omega)))
    · exact (buf_setLen_ne t _ hm).trans (hother m hm)
    · rw [hreturned, List.append_assoc, List.replicate_succ']

end Sys2Proof.Machine
end

section
/-! Proofs about the laws of single DES (40_des_algorithm.md): the numbering of the bits (R91), that `FP` undoes `IP` (R94),
that each cipher undoes the other, and that parity bits have no effect (section 4). -/

namespace Sys2Proof.Machine

/-! ### Eight bytes as a DES quantity (R91) -/

/-- Byte `q` of the quantity, counted from the most significant. -/
theorem toBlock_div_mod (b : Bytes) {q : Nat} (hq : q < 8) :
    (toBlock b).toNat / 2 ^ (56 - 8 * q) % 256 = (b.getD q 0).toNat := by
  have h := fun i => (b.getD i 0).isLt
  have := h 0; have := h 1; have := h 2; have := h 3
  have := h 4; have := h 5; have := h 6; have := h 7
  rw [toNat_toBlock]
  interval_cases q <;> omega

/-- The bits of the quantity, counted from 0, run through the bytes, each from its bit 7 down. -/
theorem getMsbD_toBlock (b : Bytes) {k : Nat} (hk : k < 64) :
    (toBlock b).getMsbD k = (b.getD (k / 8) 0).getLsbD (7 - k % 8) := by
  have hbyte := toBlock_div_mod b (show k / 8 < 8 by omega)
  have hbit : 64 - 1 - k = 7 - k % 8 + (56 - 8 * (k / 8)) := by omega
  have hlow : 7 - k % 8 < 8 := by omega
  rw [BitVec.getMsbD, decide_eq_true hk, Bool.true_and, BitVec.getLsbD, BitVec.getLsbD, ← hbyte, hbit,
    Nat.testBit_mod_two_pow (j := 8), decide_eq_true hlow, Bool.true_and, Nat.testBit_div_two_pow]

theorem getElem_ofBlock (x : BitVec 64) (i : Nat) (h : i < (ofBlock x).length) :
    (ofBlock x)[i] = BitVec.ofNat 8 (x.toNat / 2 ^ (56 - 8 * i)) := by
  simp [ofBlock, Nat.shiftRight_eq_div_pow]

theorem getD_ofBlock (x : BitVec 64) {i : Nat} (h : i < 8) :
    (ofBlock x).getD i 0 = BitVec.ofNat 8 (x.toNat / 2 ^ (56 - 8 * i)) := by
  rw [List.getD_eq_getElem _ _ (by simpa using h), getElem_ofBlock]

theorem ofBlock_toBlock {b : Bytes} (h : b.length = 8) : ofBlock (toBlock b) = b := by
  apply List.ext_getElem (by simp [h])
  intro i hi hb
  apply BitVec.eq_of_toNat_eq
  rw [getElem_ofBlock, BitVec.toNat_ofNat, toBlock_div_mod b (h ▸ hb), List.getD_eq_getElem _ _ hb]

@[simp] theorem toBlock_ofBlock (x : BitVec 64) : toBlock (ofBlock x) = x := by
  apply BitVec.eq_of_getMsbD_eq
  intro k hk
  have hbit : 7 - k % 8 + (56 - 8 * (k / 8)) = 64 - 1 - k := by omega
  have hlow : 7 - k % 8 < 8 := by omega
  rw [getMsbD_toBlock _ hk, getD_ofBlock x (by omega), BitVec.getLsbD_ofNat, decide_eq_true hlow, Bool.true_and,
    Nat.testBit_div_two_pow, hbit, BitVec.getMsbD, decide_eq_true hk, Bool.true_and, BitVec.getLsbD]

/-! ### Tables that undo each other (R92) -/

/-- Table `u` looks each bit up where table `t` has put it. -/
def TableUndoes (u t : List Nat) : Prop :=
  u.length = 64 ∧ t.length = 64 ∧
    ∀ i : Fin 64, 1 ≤ u.getD i.val 0 ∧ u.getD i.val 0 ≤ 64 ∧ t.getD (u.getD i.val 0 - 1) 0 = i.val + 1

theorem applyTable_of_undoes {u t : List Nat} (h : TableUndoes u t) (x : BitVec 64) :
    applyTable 64 u (applyTable 64 t x : BitVec 64) = x := by
  obtain ⟨hu, ht, hundoes⟩ := h
  apply BitVec.eq_of_getMsbD_eq
  intro i hi
  obtain ⟨hlow, hhigh, hback⟩ := hundoes ⟨i, hi⟩
  have hui : i < u.length := by omega
  rw [List.getD_eq_getElem _ _ hui] at hlow hhigh hback
  rw [List.getD_eq_getElem _ _ (by omega)] at hback
  rw [getMsbD_applyTable u _ hu i hi hlow hhigh,
    getMsbD_applyTable t x ht (u[i] - 1) (by omega) (by omega) (by omega), hback, Nat.add_sub_cancel]

theorem tableFP_undoes_tableIP : TableUndoes tableFP tableIP := by
  unfold TableUndoes
  decide +kernel

theorem tableIP_undoes_tableFP : TableUndoes tableIP tableFP := by
  unfold TableUndoes
  decide +kernel

/-! ### Each cipher undoes the other (section 4) -/

/-- The reversed round keys take back what the round keys did (R102). -/
theorem desBlock_reverse_desBlock (keys : List (BitVec 48)) (b : BitVec 64) :
    desBlock keys.reverse (desBlock keys b) = b := by
  have hip := (joinHalves_halves (applyTable 64 tableIP b)).symm
  rcases hrounds : feistelRounds keys (leftHalf (applyTable 64 tableIP b), rightHalf (applyTable 64 tableIP b)) with ⟨l, r⟩
  rw [desBlock_eq_of_rounds hip hrounds,
    desBlock_reverse_eq_of_rounds (applyTable_of_undoes tableIP_undoes_tableFP _) hrounds, ← hip,
    applyTable_of_undoes tableFP_undoes_tableIP]

theorem desD_desE (k : Bytes) {b : Bytes} (h : b.length = 8) : desD k (desE k b) = b := by
  rw [desD, desE, toBlock_ofBlock, desBlock_reverse_desBlock, ofBlock_toBlock h]

theorem desE_desD (k : Bytes) {b : Bytes} (h : b.length = 8) : desE k (desD k b) = b := by
  have hback := desBlock_reverse_desBlock (roundKeys (toBlock k)).reverse (toBlock b)
  rw [List.reverse_reverse] at hback
  rw [desE, desD, toBlock_ofBlock, hback, ofBlock_toBlock h]

/-! ### Parity bits (section 4) -/

/-- A table's result is determined by the bits it looks up. -/
theorem applyTable_congr {n m : Nat} {table : List Nat} {x y : BitVec n} (h : ∀ k ∈ table, desBit x k = desBit y k) :
    applyTable m table x = applyTable m table y := by
  unfold applyTable
  rw [List.foldl_ext _ _ _ fun a k hk => by rw [h k hk]]

/-- The bits of a quantity as R91 numbers them. -/
theorem desBit_eq_toNat_getMsbD {n : Nat} (x : BitVec n) {k : Nat} (h1 : 1 ≤ k) (hn : k ≤ n) :
    desBit x k = (x.getMsbD (k - 1)).toNat := by
  have hbit : n - 1 - (k - 1) = n - k := by omega
  rw [BitVec.getMsbD, decide_eq_true (by omega), Bool.true_and, hbit, BitVec.getLsbD, Nat.toNat_testBit, desBit,
    Nat.shiftRight_eq_div_pow]

/-- Clearing bit 0 leaves the other bits. -/
theorem getLsbD_and_clearParity (x : Byte) {j : Nat} (h1 : 1 ≤ j) (h8 : j < 8) :
    (x &&& 0xFE).getLsbD j = x.getLsbD j := by
  have hmask : (0xFE : Byte).getLsbD j = true := by interval_cases j <;> rfl
  rw [BitVec.getLsbD_and, hmask, Bool.and_true]

/-- Permuted choice 1 looks up no bit whose number is a multiple of 8 (R98). -/
theorem tablePC1_range : ∀ k ∈ tablePC1, 1 ≤ k ∧ k ≤ 64 ∧ k % 8 ≠ 0 := by decide

/-- Bytes that agree outside bit 0 agree in every bit permuted choice 1 looks up. -/
theorem desBit_toBlock_congr {k k' : Bytes} (h : k.map (· &&& 0xFE) = k'.map (· &&& 0xFE)) {n : Nat}
    (hn : n ∈ tablePC1) : desBit (toBlock k) n = desBit (toBlock k') n := by
  obtain ⟨h1, h64, hparity⟩ := tablePC1_range n hn
  have hbyte : k.getD ((n - 1) / 8) 0 &&& 0xFE = k'.getD ((n - 1) / 8) 0 &&& 0xFE := by
    have hmap := congrArg (fun l : Bytes => l.getD ((n - 1) / 8) (0 &&& 0xFE)) h
    simpa only [List.getD_map] using hmap
  have hbit (x : Byte) := getLsbD_and_clearParity x (j := 7 - (n - 1) % 8) (by omega) (by omega)
  rw [desBit_eq_toNat_getMsbD _ h1 h64, desBit_eq_toNat_getMsbD _ h1 h64, getMsbD_toBlock _ (by omega),
    getMsbD_toBlock _ (by omega), ← hbit, hbyte, hbit]

theorem roundKeys_congr {k k' : Bytes} (h : k.map (· &&& 0xFE) = k'.map (· &&& 0xFE)) :
    roundKeys (toBlock k) = roundKeys (toBlock k') := by
  unfold roundKeys
  rw [applyTable_congr fun n hn => desBit_toBlock_congr h hn]

/-! ### The statements -/

/-- Settles O28: each of the two tables looks every bit up where the other has put it. -/
theorem finalPermutationInvertsInitial : Obligations.FinalPermutationInvertsInitial :=
  fun x => ⟨applyTable_of_undoes tableFP_undoes_tableIP x, applyTable_of_undoes tableIP_undoes_tableFP x⟩

/-- Settles O29: the rounds under the reversed round keys run backwards between permutations that cancel. -/
theorem desDecipherInvertsEncipher : Obligations.DesDecipherInvertsEncipher := by
  intro k b _ hb
  refine ⟨desD_desE k hb, desE_desD k hb, fun b' hb' h => ?_⟩
  rw [← desD_desE k hb, h, desD_desE k hb']

/-- Settles O30: the ciphers use the key through its round keys only, and those through permuted choice 1. -/
theorem desIgnoresParityBits : Obligations.DesIgnoresParityBits := by
  intro k k' b _ _ h
  rw [desE, desE, desD, desD, roundKeys_congr h]
  exact ⟨rfl, rfl⟩

/-- Settles O31: the quantity's bytes are the string's, the first the most significant. -/
theorem desBitNumbering : Obligations.DesBitNumbering :=
  ⟨fun b _ h1 h64 => getMsbD_toBlock b (by omega), fun _ h => ofBlock_toBlock h,
    fun x => ⟨ofBlock_length x, toBlock_ofBlock x⟩⟩

end Sys2Proof.Machine
end

section
/-! Proofs about the commands of the block cipher and the codec (41_block_cipher.md sections 2 and 3, 45_transaction_codec.md):
`TENC` and `TDEC` on every operand, the round trip, and the keying options that coincide; and the laws of XOR
(42_byte_utilities.md section 3). -/

namespace Sys2Proof.Machine

/-! ### A command that is a block function -/

/-- A command whose function is a block function, whichever its cipher, ends as the checks of R113 decide. -/
theorem blockCommand_ends {i : Instr} {s : State} {cipher : Bytes → Bytes → Bytes} {key block : Bytes}
    (h : commandFunction i s.rejectKey s.value = checkedBlock cipher s.rejectKey key block) :
    let legalKey := key.length = 16 ∨ key.length = 24
    (legalKey ∧ block.length = 8 ∧ s.rejectKey (tripleLength key) = false →
      Completes i s (cipher (tripleLength key) block)) ∧
    (¬ legalKey → Fails i s 1) ∧
    (legalKey ∧ block.length ≠ 8 → Fails i s 2) ∧
    (legalKey ∧ block.length = 8 ∧ s.rejectKey (tripleLength key) = true → Fails i s 4) := by
  refine ⟨fun ⟨hkey, hblock, haccept⟩ => ?_, fun hkey => ?_, fun ⟨hkey, hblock⟩ => ?_,
    fun ⟨hkey, hblock, hreject⟩ => ?_⟩
  · exact completes_of_commandFunction (h.trans (checkedBlock_of_accepted hkey hblock haccept))
  · exact fails_of_commandFunction (e := .invalidKeyLength) (h.trans (checkedBlock_of_key_length hkey))
  · exact fails_of_commandFunction (e := .invalidBlockLength) (h.trans (checkedBlock_of_block_length hkey hblock))
  · exact fails_of_commandFunction (e := .cipherInitError) (h.trans (checkedBlock_of_rejected hkey hblock hreject))

/-! ### Triple-DES decryption undoes encryption (41_block_cipher.md section 3) -/

theorem tdeaDecrypt_tdeaEncrypt (key : Bytes) {block : Bytes} (h : block.length = 8) :
    tdeaDecrypt key (tdeaEncrypt key block) = block := by
  rw [tdeaDecrypt, tdeaEncrypt, desD_desE _ (desD_length _ _), desE_desD _ (desE_length _ _), desD_desE _ h]

theorem tdeaEncrypt_tdeaDecrypt (key : Bytes) {block : Bytes} (h : block.length = 8) :
    tdeaEncrypt key (tdeaDecrypt key block) = block := by
  rw [tdeaDecrypt, tdeaEncrypt, desE_desD _ (desE_length _ _), desD_desE _ (desD_length _ _), desE_desD _ h]

/-! ### The round trip on the machine -/

theorem exec_of_commandFunction {i : Instr} {s : State} {v : Bytes}
    (h : commandFunction i s.rejectKey s.value = .ok v) : exec i s = .next (complete i.dest v s) := by
  rw [exec_eq_finish, h]
  rfl

theorem value_complete_same (s : State) (rd : BufIx) {v : Bytes} (h : v.length ≤ 24) :
    (complete rd v s).value rd = v := by
  rw [State.value, buf_complete_same, Buffer.value_ofValue v h]

theorem value_complete_ne (s : State) {rd n : BufIx} (v : Bytes) (h : n ≠ rd) :
    (complete rd v s).value n = s.value n := by
  rw [State.value, buf_complete_ne v s h, State.value]

/-- Buffer `n` holds a key of a legal length whose expansion is not rejected (R110, R114). -/
def HoldsAcceptedKey (s : State) (n : BufIx) : Prop :=
  ((s.value n).length = 16 ∨ (s.value n).length = 24) ∧ s.rejectKey (tripleLength (s.value n)) = false

/-- A command of format R3 that, from a state with an accepted key and an 8-byte block, completes with the cipher's 8
bytes. -/
def CompletesCipher (command : BufIx → BufIx → BufIx → Instr) (cipher : Bytes → Bytes → Bytes) : Prop :=
  ∀ (s : State) (rd rk rb : BufIx), HoldsAcceptedKey s rk → (s.value rb).length = 8 →
    exec (command rd rk rb) s = .next (complete rd (cipher (s.value rk) (s.value rb)) s) ∧
    (cipher (s.value rk) (s.value rb)).length = 8

theorem encd_completesCipher : CompletesCipher expandEncd tdeaEncrypt := by
  intro s rd rk rb ⟨hkey, haccept⟩ hblock
  refine ⟨exec_of_commandFunction ?_, tdeaEncrypt_length _ _⟩
  rw [← tdesE_tripleLength hkey]
  exact checkedBlock_of_accepted hkey hblock haccept

theorem decd_completesCipher : CompletesCipher expandDecd tdeaDecrypt := by
  intro s rd rk rb ⟨hkey, haccept⟩ hblock
  refine ⟨exec_of_commandFunction ?_, tdeaDecrypt_length _ _⟩
  rw [← tdesD_tripleLength hkey]
  exact checkedBlock_of_accepted hkey hblock haccept

/-- Two commands whose ciphers cancel give the block back, where the first leaves the key's buffer alone. -/
theorem roundTrip_of_completesCipher {first second : BufIx → BufIx → BufIx → Instr} {f g : Bytes → Bytes → Bytes}
    (hfirst : CompletesCipher first f) (hsecond : CompletesCipher second g)
    (hinverse : ∀ key block : Bytes, block.length = 8 → g key (f key block) = block)
    {s : State} {mid rk rb : BufIx} (rd : BufIx) (hkey : HoldsAcceptedKey s rk) (hblock : (s.value rb).length = 8)
    (hmid : mid ≠ rk) :
    ∃ t u, exec (first mid rk rb) s = .next t ∧ exec (second rd rk mid) t = .next u ∧
      t.status = 0 ∧ u.status = 0 ∧ u.value rd = s.value rb := by
  obtain ⟨ht, hlen⟩ := hfirst s mid rk rb hkey hblock
  generalize hcipher : f (s.value rk) (s.value rb) = cipher at ht hlen
  have hkey' : (complete mid cipher s).value rk = s.value rk := value_complete_ne s cipher hmid.symm
  have hblock' : (complete mid cipher s).value mid = cipher := value_complete_same s mid (by omega)
  have haccepted : HoldsAcceptedKey (complete mid cipher s) rk := by
    rw [HoldsAcceptedKey, hkey']
    exact hkey
  obtain ⟨hu, -⟩ := hsecond (complete mid cipher s) rd rk mid haccepted (hblock'.symm ▸ hlen)
  rw [hkey', hblock', ← hcipher, hinverse _ _ hblock] at hu
  exact ⟨_, _, ht, hcipher ▸ hu, rfl, rfl, value_complete_same _ rd (by omega)⟩

/-! ### Keying options that coincide (section 2) -/

/-- A block function looks at the key's expansion only, so keys of one expansion are alike to it. -/
theorem checkedBlock_congr_key {key key' : Bytes} (cipher : Bytes → Bytes → Bytes) (reject : Bytes → Bool)
    (block : Bytes) (hkey : key.length = 16 ∨ key.length = 24) (hkey' : key'.length = 16 ∨ key'.length = 24)
    (h : tripleLength key = tripleLength key') :
    checkedBlock cipher reject key block = checkedBlock cipher reject key' block := by
  rw [checkedBlock_of_legal_key hkey, checkedBlock_of_legal_key hkey', h]

theorem tripleLength_append_take {key : Bytes} (h : key.length = 16) :
    (key ++ key.take 8).length = 24 ∧ tripleLength key = tripleLength (key ++ key.take 8) := by
  have hlen : (key ++ key.take 8).length = 24 := by simp [h]
  exact ⟨hlen, by rw [tripleLength_of_sixteen h, tripleLength_of_twentyFour hlen]⟩

section
variable {half block : Bytes}

theorem tripleLength_equal_halves (h : half.length = 8) : tripleLength (half ++ half) = half ++ half ++ half := by
  rw [tripleLength_of_sixteen (by simp [h]), List.take_left' h]

/-- The three 8-byte parts of three equal halves. -/
theorem parts_of_equal_halves (h : half.length = 8) :
    (half ++ half ++ half).take 8 = half ∧ ((half ++ half ++ half).drop 8).take 8 = half ∧
    (half ++ half ++ half).drop 16 = half := by
  refine ⟨?_, ?_, List.drop_left' (by simp [h])⟩
  · rw [List.append_assoc, List.take_left' h]
  · rw [List.append_assoc, List.drop_left' h, List.take_left' h]

theorem tdeaEncrypt_equal_halves (h : half.length = 8) (hb : block.length = 8) :
    tdeaEncrypt (half ++ half) block = desE half block := by
  obtain ⟨h1, h2, h3⟩ := parts_of_equal_halves h
  rw [tdeaEncrypt, tripleLength_equal_halves h, h1, h2, h3, desD_desE half hb]

theorem tdeaDecrypt_equal_halves (h : half.length = 8) (hb : block.length = 8) :
    tdeaDecrypt (half ++ half) block = desD half block := by
  obtain ⟨h1, h2, h3⟩ := parts_of_equal_halves h
  rw [tdeaDecrypt, tripleLength_equal_halves h, h1, h2, h3, desE_desD half hb]

end

/-! ### Element-wise XOR -/

theorem xorBytes_of_length {a b : Bytes} (h : a.length = b.length) :
    xorBytes a b = .ok (List.zipWith (· ^^^ ·) a b) :=
  (xorBytes_eq a b).trans (if_pos h)

theorem zipWith_xor_comm (a b : Bytes) : List.zipWith (· ^^^ ·) a b = List.zipWith (· ^^^ ·) b a :=
  List.zipWith_comm_of_comm BitVec.xor_comm

theorem zipWith_xor_assoc (a b c : Bytes) :
    List.zipWith (· ^^^ ·) (List.zipWith (· ^^^ ·) a b) c = List.zipWith (· ^^^ ·) a (List.zipWith (· ^^^ ·) b c) := by
  induction a generalizing b c with
  | nil => simp
  | cons x a ih =>
    cases b with
    | nil => simp
    | cons y b =>
      cases c with
      | nil => simp
      | cons z c => simp only [List.zipWith_cons_cons, ih, BitVec.xor_assoc]

theorem zipWith_xor_zero {a : Bytes} {n : Nat} (h : a.length = n) :
    List.zipWith (· ^^^ ·) a (List.replicate n 0) = a := by
  subst h
  induction a with
  | nil => rfl
  | cons x a ih => rw [List.length_cons, List.replicate_succ, List.zipWith_cons_cons, ih]; simp

/-! ### The statements -/

/-- Settles O34: `TENC` is the block function of Triple-DES encryption. -/
theorem tencEncryptsOneBlock : Obligations.TencEncryptsOneBlock := by
  intro s rd rs1 rs2 key block legalKey
  have h : commandFunction (.tenc rd rs1 rs2) s.rejectKey s.value = checkedBlock tdesE s.rejectKey key block := rfl
  obtain ⟨hcompletes, hfails⟩ := blockCommand_ends h
  exact ⟨fun hlegal => tdesE_tripleLength hlegal.1 block ▸ hcompletes hlegal, hfails⟩

/-- Settles O35: `TDEC` is the block function of Triple-DES decryption. -/
theorem tdecDecryptsOneBlock : Obligations.TdecDecryptsOneBlock := by
  intro s rd rs1 rs2 key block legalKey
  have h : commandFunction (.tdec rd rs1 rs2) s.rejectKey s.value = checkedBlock tdesD s.rejectKey key block := rfl
  obtain ⟨hcompletes, hfails⟩ := blockCommand_ends h
  exact ⟨fun hlegal => tdesD_tripleLength hlegal.1 block ▸ hcompletes hlegal, hfails⟩

/-- Settles O36: both ciphers are Triple-DES under the same key, and each undoes the other. -/
theorem decryptionUndoesEncryption : Obligations.DecryptionUndoesEncryption := by
  intro s mid rd rk rb hkey hblock haccept hmid
  exact ⟨roundTrip_of_completesCipher encd_completesCipher decd_completesCipher
      (fun key _ h => tdeaDecrypt_tdeaEncrypt key h) rd ⟨hkey, haccept⟩ hblock hmid,
    roundTrip_of_completesCipher decd_completesCipher encd_completesCipher
      (fun key _ h => tdeaEncrypt_tdeaDecrypt key h) rd ⟨hkey, haccept⟩ hblock hmid⟩

/-- Settles O37: the two keys have one expansion, and under equal halves the outer stage cancels the middle one. -/
theorem keyingOptionsCoincide : Obligations.KeyingOptionsCoincide := by
  intro reject key half block hkey hhalf hblock
  obtain ⟨hlong, hsame⟩ := tripleLength_append_take hkey
  have hhalves : (half ++ half).length = 16 ∨ (half ++ half).length = 24 := .inl (by simp [hhalf])
  simp only [encryptBlock_eq_checkedBlock, decryptBlock_eq_checkedBlock]
  refine ⟨checkedBlock_congr_key _ _ _ (.inl hkey) (.inr hlong) hsame,
    checkedBlock_congr_key _ _ _ (.inl hkey) (.inr hlong) hsame, fun haccept => ?_⟩
  rw [← tripleLength_equal_halves hhalf] at haccept
  rw [checkedBlock_of_accepted hhalves hblock haccept, checkedBlock_of_accepted hhalves hblock haccept,
    tdesE_tripleLength hhalves, tdesD_tripleLength hhalves, tdeaEncrypt_equal_halves hhalf hblock,
    tdeaDecrypt_equal_halves hhalf hblock]
  exact ⟨rfl, rfl⟩

/-- Settles O39: the laws of element-wise XOR, no length check failing. -/
theorem xorLaws : Obligations.XorLaws := by
  intro a b c hab hbc
  have hab' : (List.zipWith (· ^^^ ·) a b : Bytes).length = b.length := by simp [hab]
  have hbc' : (List.zipWith (· ^^^ ·) b c : Bytes).length = b.length := by simp [hbc]
  rw [xorBytes_of_length hab, xorBytes_of_length hab.symm, xorBytes_of_length hbc, xorBytes_of_length (a := a) rfl]
  change _ ∧ xorBytes _ _ = xorBytes _ _ ∧ xorBytes _ _ = _ ∧ _
  rw [xorBytes_of_length (hab'.trans hbc), xorBytes_of_length (hab.trans hbc'.symm), xorBytes_of_length hab',
    zipWith_xor_comm b a, zipWith_xor_assoc, zipWith_xor_assoc, zipWith_xor_self, zipWith_xor_self, zipWith_xor_zero hab]
  exact ⟨rfl, rfl, rfl, rfl⟩

end Sys2Proof.Machine
end

section
/-! Proofs about the key derivations (43_ipek.md, 44_session_key.md): `IPEK`, `SKR` and `DTK` on every operand, what they do
not depend on, the working KSN of the chain, and the chain as a sequence of rounds. -/

namespace Sys2Proof.Machine

/-! ### The IPEK (43_ipek.md) -/

theorem generateIpek_of_key_length {reject : Bytes → Bool} {bdk ksn : Bytes} (hk : bdk.length ≠ 16) :
    generateIpek reject bdk ksn = .error .invalidKeyLength := by
  rw [generateIpek, Config.derivKeyBytes, beq_false_of_ne hk]
  rfl

theorem generateIpek_of_ksn_length {reject : Bytes → Bool} {bdk ksn : Bytes} (hk : bdk.length = 16)
    (hn : ksn.length < 8) : generateIpek reject bdk ksn = .error .invalidKsnLength := by
  rw [generateIpek, hk, maskKsnForIpek_eq, if_neg (by omega)]
  rfl

/-- Both keys of a fold pass `RejectKey` exactly when neither expansion is rejected. -/
theorem foldAccepted_iff (s : State) (key v : Bytes) :
    foldAccepted s key v ↔
      (s.rejectKey (tripleLength key) || s.rejectKey (tripleLength (variantKey key v))) = false :=
  Bool.or_eq_false_iff.symm

theorem not_foldAccepted_iff (s : State) (key v : Bytes) :
    ¬ foldAccepted s key v ↔
      (s.rejectKey (tripleLength key) || s.rejectKey (tripleLength (variantKey key v))) = true := by
  rw [foldAccepted_iff, Bool.not_eq_false]

section
variable {s : State} {key ksn : Bytes}

theorem generateIpek_of_accepted (hk : key.length = 16) (hn : 8 ≤ ksn.length) (h : foldAccepted s key ipekVariant) :
    generateIpek s.rejectKey key ksn = .ok (foldResult key (ipekMasked ksn) ipekVariant) := by
  rw [generateIpek_eq hk hn, (foldAccepted_iff ..).1 h]
  rfl

theorem generateIpek_of_rejected (hk : key.length = 16) (hn : 8 ≤ ksn.length) (h : ¬ foldAccepted s key ipekVariant) :
    generateIpek s.rejectKey key ksn = .error .cipherInitError := by
  rw [generateIpek_eq hk hn, (not_foldAccepted_iff ..).1 h]
  rfl

theorem generateSessionKey_of_accepted (hk : key.length = 16) (hn : ksn.length = 8 ∨ ksn.length = 10)
    (h : foldAccepted s key roundVariant) : generateSessionKey s.rejectKey key ksn = .ok (roundResult ksn key) := by
  rw [generateSessionKey_eq hk hn, (foldAccepted_iff ..).1 h]
  rfl

theorem generateSessionKey_of_rejected (hk : key.length = 16) (hn : ksn.length = 8 ∨ ksn.length = 10)
    (h : ¬ foldAccepted s key roundVariant) : generateSessionKey s.rejectKey key ksn = .error .cipherInitError := by
  rw [generateSessionKey_eq hk hn, (not_foldAccepted_iff ..).1 h]
  rfl

end

/-- Where an encryption under a 16-byte key succeeds, the key was accepted. -/
theorem encryptBlock_sixteen_eq_ok {reject : Bytes → Bool} {key block c : Bytes} (hk : key.length = 16)
    (hb : block.length = 8) (h : encryptBlock reject key block = .ok c) :
    reject (tripleLength key) = false ∧ tdeaEncrypt key block = c := by
  rw [encryptBlock_of_sixteen hk hb] at h
  split at h
  case isTrue => cases h
  case isFalse haccept => exact ⟨Bool.not_eq_true _ ▸ haccept, Except.ok.inj h⟩

theorem ipekMasked_congr {ksn ksn' : Bytes} (hfirst : ksn.take 7 = ksn'.take 7)
    (hseventh : ksn.getD 7 0 &&& 0xE0 = ksn'.getD 7 0 &&& 0xE0) : ipekMasked ksn = ipekMasked ksn' := by
  rw [ipekMasked, ipekMasked, hfirst, hseventh]

/-! ### A session-key round and the counter (44_session_key.md section 2) -/

/-- A round looks at the KSN through its masked window only. -/
theorem generateSessionKey_congr {reject : Bytes → Bool} {ksn ksn' : Bytes} (key : Bytes)
    (hn : ksn.length = 8 ∨ ksn.length = 10) (hn' : ksn'.length = 8 ∨ ksn'.length = 10)
    (h : roundMasked (ksnWindow ksn) = roundMasked (ksnWindow ksn')) :
    generateSessionKey reject key ksn = generateSessionKey reject key ksn' := by
  rw [generateSessionKey, generateSessionKey, maskKsnForRound_of_length hn, maskKsnForRound_of_length hn', h]

theorem withCounter_length {k : Bytes} (h : k.length = 8) (c : Nat) : (withCounter k c).length = 8 := by
  simp [withCounter, h]

theorem withCounter_bytes (x0 x1 x2 x3 x4 x5 x6 x7 : Byte) (c : Nat) :
    withCounter [x0, x1, x2, x3, x4, x5, x6, x7] c =
      [x0, x1, x2, x3, x4, (x5 &&& 0xE0) ||| BitVec.ofNat 8 (c / 65536), BitVec.ofNat 8 (c / 256), BitVec.ofNat 8 c] :=
  rfl

/-- Setting low bits of byte 5 does not change its device bits (R156). -/
theorem and_device_or_ofNat (x : Byte) {c : Nat} (h : c < 32) : ((x &&& 0xE0) ||| BitVec.ofNat 8 c) &&& 0xE0 = x &&& 0xE0 := by
  have hlow : BitVec.ofNat 8 c &&& 0xE0 = 0 := by interval_cases c <;> rfl
  rw [BitVec.and_or_distrib_right, BitVec.and_assoc, hlow]
  simp

/-- The round mask takes out whatever counter the KSN holds (R134, R156). -/
theorem roundMasked_withCounter {k : Bytes} (hk : k.length = 8) {c : Nat} (hc : c < 2 ^ 21) :
    roundMasked (withCounter k c) = roundMasked k := by
  obtain ⟨x0, x1, x2, x3, x4, x5, x6, x7, rfl⟩ := eq_bytes_of_length_eight hk
  have hdevice := and_device_or_ofNat x5 (show c / 65536 < 32 by omega)
  simp only [withCounter_bytes, roundMasked, List.take, List.getD_cons_succ, List.getD_cons_zero, hdevice]

theorem generateSessionKey_withCounter {reject : Bytes → Bool} {k : Bytes} (key : Bytes) (hk : k.length = 8) {c : Nat}
    (hc : c < 2 ^ 21) : generateSessionKey reject key (withCounter k c) = generateSessionKey reject key k := by
  have hlen := withCounter_length hk c
  refine generateSessionKey_congr key (.inl hlen) (.inl hk) ?_
  rw [ksnWindow_of_eight hlen, ksnWindow_of_eight hk, roundMasked_withCounter hk hc]

/-! ### The KSN8 as its device bits and its counter (R156) -/

theorem counterNat_lt (k : Bytes) : counterNat k < 2 ^ 21 := Nat.lt_succ_of_le (counterNat_le k)

theorem device_or_low (x : Byte) : (x &&& 0xE0) ||| BitVec.ofNat 8 (x.toNat % 32) = x := by
  revert x
  decide

theorem toNat_device_or_low (x : Byte) {c : Nat} (h : c < 32) :
    ((x &&& 0xE0) ||| BitVec.ofNat 8 c).toNat % 2 ^ 5 = c := by
  have hdevice : (x &&& 0xE0).toNat % 2 ^ 5 = 0 := by
    rw [BitVec.toNat_and, Nat.and_mod_two_pow]
    exact Nat.and_zero _
  have hlow : (BitVec.ofNat 8 c).toNat % 2 ^ 5 = c := by simp only [BitVec.toNat_ofNat]; omega
  rw [BitVec.toNat_or, Nat.or_mod_two_pow, hdevice, hlow, Nat.zero_or]

theorem withCounter_counterNat {k : Bytes} (hk : k.length = 8) : withCounter k (counterNat k) = k := by
  obtain ⟨x0, x1, x2, x3, x4, x5, x6, x7, rfl⟩ := eq_bytes_of_length_eight hk
  have h6 := x6.isLt
  have h7 := x7.isLt
  have hhigh : BitVec.ofNat 8 (counterNat [x0, x1, x2, x3, x4, x5, x6, x7] / 65536) = BitVec.ofNat 8 (x5.toNat % 32) := by
    congr 1
    simp [counterNat]
    omega
  have hmid : BitVec.ofNat 8 (counterNat [x0, x1, x2, x3, x4, x5, x6, x7] / 256) = x6 := by
    apply BitVec.eq_of_toNat_eq
    simp [counterNat]
    omega
  have hlow : BitVec.ofNat 8 (counterNat [x0, x1, x2, x3, x4, x5, x6, x7]) = x7 := by
    apply BitVec.eq_of_toNat_eq
    simp [counterNat]
    omega
  rw [withCounter_bytes, hhigh, hmid, hlow, device_or_low]

theorem counterNat_withCounter {k : Bytes} (hk : k.length = 8) {c : Nat} (hc : c < 2 ^ 21) :
    counterNat (withCounter k c) = c := by
  obtain ⟨x0, x1, x2, x3, x4, x5, x6, x7, rfl⟩ := eq_bytes_of_length_eight hk
  have hhigh : _ % 32 = _ := toNat_device_or_low x5 (show c / 65536 < 32 by omega)
  simp only [withCounter_bytes, counterNat, List.getD_cons_succ, List.getD_cons_zero, hhigh, BitVec.toNat_ofNat]
  omega

theorem withCounter_zero {k : Bytes} (hk : k.length = 8) : withCounter k 0 = clearCounter k := by
  obtain ⟨x0, x1, x2, x3, x4, x5, x6, x7, rfl⟩ := eq_bytes_of_length_eight hk
  simp [withCounter_bytes, clearCounter, setByte, byteAt]

/-! ### The working KSN (44_session_key.md section 3) -/

/-- The byte of `2 ^ n` in each of the three bytes of the counter: the bit of R159 step 2a in one of them, zero in the
others. -/
theorem counterBit_bytes : ∀ n < 21,
    BitVec.ofNat 8 (2 ^ n / 65536) = (if 15 < n then ((1 <<< (n - 16) : Nat) : Byte) else 0#8) ∧
    BitVec.ofNat 8 (2 ^ n / 256) = (if 7 < n ∧ n ≤ 15 then ((1 <<< (n - 8) : Nat) : Byte) else 0#8) ∧
    BitVec.ofNat 8 (2 ^ n) = (if n ≤ 7 then ((1 <<< n : Nat) : Byte) else 0#8) := by
  decide

theorem ofNat_or_div (c d i : Nat) :
    BitVec.ofNat 8 ((c ||| d) / 2 ^ i) = BitVec.ofNat 8 (c / 2 ^ i) ||| BitVec.ofNat 8 (d / 2 ^ i) := by
  rw [Nat.or_div_two_pow, BitVec.ofNat_or]

/-- Setting a bit in the working KSN sets it in the counter the KSN holds (R159 step 2a). -/
theorem setCounterBit_withCounter {k : Bytes} (hk : k.length = 8) (c : Nat) {n : Nat} (hn : n < 21) :
    setCounterBit (withCounter k c) n = withCounter k (c ||| 2 ^ n) := by
  obtain ⟨x0, x1, x2, x3, x4, x5, x6, x7, rfl⟩ := eq_bytes_of_length_eight hk
  obtain ⟨hhigh, hmid, hlow⟩ := counterBit_bytes n hn
  have h5 : BitVec.ofNat 8 ((c ||| 2 ^ n) / 65536) = BitVec.ofNat 8 (c / 65536) ||| BitVec.ofNat 8 (2 ^ n / 65536) :=
    ofNat_or_div c (2 ^ n) 16
  have h6 : BitVec.ofNat 8 ((c ||| 2 ^ n) / 256) = BitVec.ofNat 8 (c / 256) ||| BitVec.ofNat 8 (2 ^ n / 256) :=
    ofNat_or_div c (2 ^ n) 8
  rw [withCounter_bytes, withCounter_bytes, h5, h6, BitVec.ofNat_or, hhigh, hmid, hlow]
  obtain hrow | hrow | hrow : n ≤ 7 ∨ (7 < n ∧ n ≤ 15) ∨ 15 < n := by omega
  · rw [setCounterBit, if_pos hrow, if_pos hrow, if_neg (by omega), if_neg (by omega), BitVec.or_zero, BitVec.or_zero]
    rfl
  · rw [setCounterBit, if_neg (by omega), if_pos hrow.2, if_pos hrow, if_neg (by omega), if_neg (by omega),
      BitVec.or_zero, BitVec.or_zero]
    rfl
  · rw [setCounterBit, if_neg (by omega), if_neg (by omega), if_pos hrow, if_neg (by omega), if_neg (by omega),
      BitVec.or_zero, BitVec.or_zero, ← BitVec.or_assoc]
    rfl

/-- The counter's one bits below `m`, set in the cleared KSN, give the KSN with the counter reduced to those bits. -/
theorem foldl_setCounterBit {k : Bytes} (hk : k.length = 8) (c : Nat) {m : Nat} (hm : m ≤ 21) :
    ((List.range m).filter fun n => c.testBit n).foldl setCounterBit (withCounter k 0) = withCounter k (c % 2 ^ m) := by
  induction m with
  | zero => simp [Nat.mod_one]
  | succ m ih =>
    rw [List.range_succ, List.filter_append, List.foldl_append, ih (by omega), Nat.mod_pow_succ,
      ← Nat.toNat_testBit]
    cases hbit : c.testBit m
    · simp [hbit]
    · have hlt : c % 2 ^ m < 2 ^ m := Nat.mod_lt _ (by positivity)
      simp only [List.filter_cons, hbit, List.filter_nil, List.foldl_cons, List.foldl_nil, if_true,
        setCounterBit_withCounter hk _ (show m < 21 by omega), Bool.toNat_true, Nat.mul_one]
      rw [Nat.or_comm, or_eq_add_of_dvd m dvd_rfl hlt, Nat.add_comm]

/-- The counter's one bits up to and including `p` are those among the positions below `p + 1`. -/
theorem filter_counterOnes (c : Nat) {p : Nat} (hp : p < 21) :
    (counterOnes c).filter (· ≤ p) = (List.range (p + 1)).filter fun n => c.testBit n := by
  have hrange : (List.range 21).filter (· ≤ p) = List.range (p + 1) := by interval_cases p <;> rfl
  rw [counterOnes, List.filter_comm, hrange]

/-! ### The chain as rounds under one KSN (44_session_key.md section 4) -/

/-- `n` rounds with the same KSN, one after another. -/
def sessionRounds (reject : Bytes → Bool) (ksn : Bytes) : Nat → Bytes → Except ErrorKind Bytes
  | 0, key => .ok key
  | n + 1, key => do
    let next ← generateSessionKey reject key ksn
    sessionRounds reject ksn n next

theorem foldlM_eq_sessionRounds (reject : Bytes → Bool) (ksn : Bytes) (ps : List Nat) (key : Bytes) :
    ps.foldlM (fun key _ => generateSessionKey reject key ksn) key = sessionRounds reject ksn ps.length key := by
  induction ps generalizing key with
  | nil => rfl
  | cons p ps ih =>
    rw [List.foldlM_cons, List.length_cons, sessionRounds]
    exact bind_congr fun next => ih next

/-- One more round at the end. -/
theorem sessionRounds_succ (reject : Bytes → Bool) (ksn : Bytes) (n : Nat) (key : Bytes) :
    sessionRounds reject ksn (n + 1) key = (do
      let cur ← sessionRounds reject ksn n key
      generateSessionKey reject cur ksn) := by
  induction n generalizing key with
  | zero => exact bind_pure _
  | succ n ih =>
    rw [sessionRounds, sessionRounds, bind_assoc]
    exact bind_congr fun next => ih next

theorem filter_counter_eq_counterOnes (k : Bytes) :
    ((List.range 21).filter fun n => (counter k).getLsbD n) = counterOnes (counterNat k) := by
  rw [counterOnes, ← toNat_counter]
  rfl

/-- The chain is one round for each one bit of the counter, and a final one. -/
theorem deriveTransactionKey_eq_sessionRounds {reject : Bytes → Bool} {ipek ksn : Bytes} (hk : ipek.length = 16)
    (hn : ksn.length = 8 ∨ ksn.length = 10) :
    deriveTransactionKey reject ipek ksn =
      sessionRounds reject ksn ((counterOnes (counterNat (ksnWindow ksn))).length + 1) ipek := by
  rw [deriveTransactionKey_eq hk hn, filter_counter_eq_counterOnes, sessionRounds_succ, foldlM_eq_sessionRounds]

theorem sessionRounds_congr {reject : Bytes → Bool} {ksn ksn' : Bytes}
    (h : ∀ key, generateSessionKey reject key ksn = generateSessionKey reject key ksn') (n : Nat) (key : Bytes) :
    sessionRounds reject ksn n key = sessionRounds reject ksn' n key := by
  induction n generalizing key with
  | zero => rfl
  | succ n ih =>
    rw [sessionRounds, sessionRounds, h]
    exact bind_congr ih

section
variable {s : State} {ksn : Bytes} (hn : ksn.length = 8 ∨ ksn.length = 10)
include hn

/-- Rounds none of whose keys is rejected. -/
theorem sessionRounds_of_accepted (n : Nat) {key : Bytes} (hk : key.length = 16)
    (h : ∀ j < n, foldAccepted s (roundIterate ksn j key) roundVariant) :
    sessionRounds s.rejectKey ksn n key = .ok (roundIterate ksn n key) := by
  induction n generalizing key with
  | zero => rfl
  | succ n ih =>
    rw [sessionRounds, generateSessionKey_of_accepted hk hn (h 0 n.succ_pos)]
    exact ih (foldResult_length ..) fun j hj => h (j + 1) (Nat.succ_lt_succ hj)

/-- Rounds with a rejected key among theirs: the first one ends the chain. -/
theorem sessionRounds_of_rejected (n : Nat) {key : Bytes} (hk : key.length = 16)
    (h : ∃ j < n, ¬ foldAccepted s (roundIterate ksn j key) roundVariant) :
    sessionRounds s.rejectKey ksn n key = .error .cipherInitError := by
  induction n generalizing key with
  | zero => obtain ⟨j, hj, -⟩ := h; omega
  | succ n ih =>
    rw [sessionRounds]
    by_cases hfirst : foldAccepted s key roundVariant
    · rw [generateSessionKey_of_accepted hk hn hfirst]
      refine ih (foldResult_length ..) ?_
      obtain ⟨_ | j, hj, hrejected⟩ := h
      · exact absurd hfirst hrejected
      · exact ⟨j, Nat.lt_of_succ_lt_succ hj, hrejected⟩
    · rw [generateSessionKey_of_rejected hk hn hfirst]
      rfl

end

/-! ### The statements -/

/-- Settles O42: each clause is what `generateIPEK` answers on such operands. -/
theorem ipekDerivesTheInitialKey : Obligations.IpekDerivesTheInitialKey := by
  intro s rd rs1 rs2 bdk ksn
  refine ⟨fun ⟨hk, hn, haccept⟩ => ?_, fun hk => ?_, fun ⟨hk, hn⟩ => ?_, fun ⟨hk, hn, hreject⟩ => ?_⟩
  · exact completes_of_commandFunction (generateIpek_of_accepted hk hn haccept)
  · exact fails_of_commandFunction (e := .invalidKeyLength) (generateIpek_of_key_length hk)
  · exact fails_of_commandFunction (e := .invalidKsnLength) (generateIpek_of_ksn_length hk hn)
  · exact fails_of_commandFunction (e := .cipherInitError) (generateIpek_of_rejected hk hn hreject)

/-- Settles O43: the KSN is used through its IPEK mask only. -/
theorem ipekIgnoresTheCounter : Obligations.IpekIgnoresTheCounter := by
  intro reject bdk ksn ksn' hn hn' hfirst hseventh
  rw [generateIpek, generateIpek, maskKsnForIpek_eq, maskKsnForIpek_eq, if_pos hn, if_pos hn',
    ipekMasked_congr hfirst hseventh]

/-- Settles O44: both encryptions of the fold succeed, so neither key was rejected. -/
theorem ipekDecomposes : Obligations.IpekDecomposes := by
  intro reject bdk ksn m l v r hk hmask hleft hvariant hright
  have hn : 8 ≤ ksn.length := by
    by_contra hn
    rw [maskKsnForIpek_eq, if_neg hn] at hmask
    cases hmask
  obtain rfl : ipekMasked ksn = m := Except.ok.inj (((maskKsnForIpek_eq ksn).trans (if_pos hn)).symm.trans hmask)
  obtain rfl : variantKey bdk ipekVariant = v := Except.ok.inj ((xorBytes_of_length hk).symm.trans hvariant)
  obtain ⟨hleftAccepted, rfl⟩ := encryptBlock_sixteen_eq_ok hk (ipekMasked_length hn) hleft
  obtain ⟨hrightAccepted, rfl⟩ :=
    encryptBlock_sixteen_eq_ok (variantKey_length hk rfl) (ipekMasked_length hn) hright
  rw [generateIpek_eq hk hn, hleftAccepted, hrightAccepted]
  rfl

/-- Settles O45: each clause is what `generateSessionKey` answers on such operands. -/
theorem skrPerformsOneRound : Obligations.SkrPerformsOneRound := by
  intro s rd rs1 rs2 key ksn legalKsn
  refine ⟨fun ⟨hk, hn, haccept⟩ => ?_, fun hk => ?_, fun ⟨hk, hn⟩ => ?_, fun ⟨hk, hn, hreject⟩ => ?_⟩
  · exact completes_of_commandFunction (generateSessionKey_of_accepted hk hn haccept)
  · exact fails_of_commandFunction (e := .invalidKeyLength) (generateSessionKey_of_key_length hk)
  · exact fails_of_commandFunction (e := .invalidKsnLength) (generateSessionKey_of_ksn_length hk hn)
  · exact fails_of_commandFunction (e := .cipherInitError) (generateSessionKey_of_rejected hk hn hreject)

/-- Settles O46: the round mask takes the counter out of the window. -/
theorem skrIgnoresTheCounter : Obligations.SkrIgnoresTheCounter := by
  rintro reject key ksn ksn' hn hn' ⟨c, hwindow, hc⟩
  exact generateSessionKey_congr key hn hn' (by rw [hwindow, roundMasked_withCounter (ksnWindow_length hn) hc])

/-- Settles O47: the chain is `n + 1` rounds with one KSN, whose first rejected key ends it. -/
theorem dtkIteratesTheRound : Obligations.DtkIteratesTheRound := by
  intro s rd rs1 rs2 ipek ksn legalKsn n
  refine ⟨fun ⟨hk, hn, haccept⟩ => ?_, fun hk => ?_, fun ⟨hk, hn⟩ => ?_, fun ⟨hk, hn, j, hj, hreject⟩ => ?_⟩
  · exact completes_of_commandFunction ((deriveTransactionKey_eq_sessionRounds hk hn).trans
      (sessionRounds_of_accepted hn (n + 1) hk fun j hj => haccept j (Nat.le_of_lt_succ hj)))
  · exact fails_of_commandFunction (e := .invalidKeyLength) (deriveTransactionKey_of_key_length hk)
  · exact fails_of_commandFunction (e := .invalidKsnLength) (deriveTransactionKey_of_ksn_length hk hn)
  · exact fails_of_commandFunction (e := .cipherInitError) ((deriveTransactionKey_eq_sessionRounds hk hn).trans
      (sessionRounds_of_rejected hn (n + 1) hk ⟨j, Nat.lt_succ_of_le hj, hreject⟩))

/-- Settles O49: each bit set in the working KSN is set in the counter it holds, from counter zero on. -/
theorem workingKsnIsCumulative : Obligations.WorkingKsnIsCumulative := by
  intro k p hk hp
  rw [← withCounter_zero hk, filter_counterOnes _ hp]
  refine ⟨foldl_setCounterBit hk _ (by omega), ?_⟩
  rw [counterOnes, foldl_setCounterBit hk _ le_rfl, Nat.mod_eq_of_lt (counterNat_lt k), withCounter_counterNat hk]

/-- Settles O50: a round with the KSN of any counter is the round with the KSN itself. -/
theorem dtkDecomposesIntoRounds : Obligations.DtkDecomposesIntoRounds := by
  intro reject ipek k hi hk
  have hround (key : Bytes) (p : Nat) :
      generateSessionKey reject key (withCounter k (counterNat k % 2 ^ (p + 1))) = generateSessionKey reject key k :=
    generateSessionKey_withCounter key hk ((Nat.mod_le _ _).trans_lt (counterNat_lt k))
  simp only [hround]
  rw [deriveTransactionKey_eq hi (.inl hk), ksnWindow_of_eight hk, filter_counter_eq_counterOnes]

/-- Settles O51: both chains are as many rounds, and a round does not depend on the counter. -/
theorem dtkDependsOnTheNumberOfOnes : Obligations.DtkDependsOnTheNumberOfOnes := by
  intro reject ipek k c c' hk hc hc' hones
  by_cases hi : ipek.length = 16
  · have hlen := withCounter_length hk
    rw [deriveTransactionKey_eq_sessionRounds hi (.inl (hlen c)), deriveTransactionKey_eq_sessionRounds hi (.inl (hlen c')),
      ksnWindow_of_eight (hlen c), ksnWindow_of_eight (hlen c'), counterNat_withCounter hk hc,
      counterNat_withCounter hk hc', hones]
    refine sessionRounds_congr (fun key => ?_) _ _
    rw [generateSessionKey_withCounter key hk hc, generateSessionKey_withCounter key hk hc']
  · rw [deriveTransactionKey_of_key_length hi, deriveTransactionKey_of_key_length hi]

/-- Settles O52: a counter of zero has no one bits, so only the final round is left; on illegal lengths both commands give
the same error. -/
theorem dtkWithCounterZeroIsSkr : Obligations.DtkWithCounterZeroIsSkr := by
  intro s rd rs1 rs2 hzero
  have hsame : deriveTransactionKey s.rejectKey (s.value rs1) (s.value rs2) =
      generateSessionKey s.rejectKey (s.value rs1) (s.value rs2) := by
    by_cases hk : (s.value rs1).length = 16
    · by_cases hn : (s.value rs2).length = 8 ∨ (s.value rs2).length = 10
      · rw [deriveTransactionKey_eq_sessionRounds hk hn, hzero]
        exact bind_pure _
      · rw [deriveTransactionKey_of_ksn_length hk hn, generateSessionKey_of_ksn_length hk hn]
    · rw [deriveTransactionKey_of_key_length hk, generateSessionKey_of_key_length hk]
  exact congrArg (finish rd · s) hsame

end Sys2Proof.Machine
end

section
/-! The document's end-to-end scenario (95_test_vectors.md section 1.1): the closed forms of the four commands, computed. -/

namespace Sys2Proof.Machine

/-! ### The scenario's values -/

def scenarioBdk : Bytes :=
  [0x01, 0x23, 0x45, 0x67, 0x89, 0xAB, 0xCD, 0xEF, 0xFE, 0xDC, 0xBA, 0x98, 0x76, 0x54, 0x32, 0x10]
def scenarioKsn : Bytes := [0xFF, 0xFF, 0x98, 0x76, 0x54, 0x32, 0x10, 0xE0, 0x00, 0x01]
def scenarioData : Bytes := [0x31, 0x32, 0x33, 0x34, 0x35, 0x36, 0x37, 0x38]
def scenarioIpek : Bytes :=
  [0x6A, 0xC2, 0x92, 0xFA, 0xA1, 0x31, 0x5B, 0x4D, 0x85, 0x8A, 0xB3, 0xA3, 0xD7, 0xD5, 0x93, 0x3A]
def scenarioSession : Bytes :=
  [0xBC, 0x41, 0x4A, 0x31, 0x39, 0x3F, 0xFA, 0x13, 0x82, 0x0E, 0xF3, 0xFB, 0x86, 0x9B, 0x12, 0xDB]
def scenarioCipher : Bytes := [0x5F, 0x86, 0x55, 0x82, 0xDE, 0x3A, 0x05, 0xAB]

theorem foldResult_scenario : foldResult scenarioBdk (ipekMasked scenarioKsn) ipekVariant = scenarioIpek := by
  decide +kernel

/-- The scenario's counter is 1, so the chain is two rounds. -/
theorem roundIterate_scenario : roundIterate scenarioKsn 2 scenarioIpek = scenarioSession := by
  decide +kernel

theorem tdeaEncrypt_scenario : tdeaEncrypt scenarioSession scenarioData = scenarioCipher := by
  decide +kernel

/-- Decryption undoes the encryption computed above. -/
theorem tdeaDecrypt_scenario : tdeaDecrypt scenarioSession scenarioCipher = scenarioData := by
  rw [← tdeaEncrypt_scenario, tdeaDecrypt_tdeaEncrypt _ rfl]

/-! ### The four commands -/

/-- After reset no key is rejected, whatever was loaded (41_block_cipher.md R114). -/
theorem rejectKey_holding (l : List (BufIx × Bytes)) (k : Bytes) : (State.holding l).rejectKey k = false := by
  have hkeys (s : State) : (l.foldl (fun s p => s.writeBuffer p.1 p.2) s).rejectedKeys = s.rejectedKeys := by
    induction l generalizing s with
    | nil => rfl
    | cons p l ih => exact ih (s.writeBuffer p.1 p.2)
  simp [State.rejectKey, State.holding, hkeys, State.reset]

theorem foldAccepted_holding (l : List (BufIx × Bytes)) (key v : Bytes) : foldAccepted (State.holding l) key v :=
  ⟨rejectKey_holding l _, rejectKey_holding l _⟩

theorem ipek_scenario : Completes (.ipek 2 0 1) (State.holding [(0, scenarioBdk), (1, scenarioKsn)]) scenarioIpek := by
  have h := (ipekDerivesTheInitialKey (State.holding [(0, scenarioBdk), (1, scenarioKsn)]) 2 0 1).1
  rw [value_holding_pair_left (by decide) (by decide), value_holding_pair_right (by decide)] at h
  rw [← foldResult_scenario]
  exact h ⟨rfl, by decide, foldAccepted_holding _ _ _⟩

theorem dtk_scenario :
    Completes (.dtk 3 2 1) (State.holding [(1, scenarioKsn), (2, scenarioIpek)]) scenarioSession := by
  have h := (dtkIteratesTheRound (State.holding [(1, scenarioKsn), (2, scenarioIpek)]) 3 2 1).1
  have hones : (counterOnes (counterNat (ksnWindow scenarioKsn))).length = 1 := by decide +kernel
  rw [value_holding_pair_left (by decide) (by decide), value_holding_pair_right (by decide), hones] at h
  rw [← roundIterate_scenario]
  exact h ⟨rfl, .inr rfl, fun _ _ => foldAccepted_holding _ _ _⟩

theorem encd_scenario :
    Completes (expandEncd 5 3 4) (State.holding [(3, scenarioSession), (4, scenarioData)]) scenarioCipher := by
  have h := (tencEncryptsOneBlock (State.holding [(3, scenarioSession), (4, scenarioData)]) 5 3 4).1
  rw [value_holding_pair_left (by decide) (by decide), value_holding_pair_right (by decide)] at h
  rw [← tdeaEncrypt_scenario]
  exact h ⟨.inl rfl, rfl, rejectKey_holding _ _⟩

theorem decd_scenario :
    Completes (expandDecd 6 3 5) (State.holding [(3, scenarioSession), (5, scenarioCipher)]) scenarioData := by
  have h := (tdecDecryptsOneBlock (State.holding [(3, scenarioSession), (5, scenarioCipher)]) 6 3 5).1
  rw [value_holding_pair_left (by decide) (by decide), value_holding_pair_right (by decide)] at h
  rw [← tdeaDecrypt_scenario]
  exact h ⟨.inl rfl, rfl, rejectKey_holding _ _⟩

/-! ### The statement -/

/-- Settles O53: each command completes with its closed form of the two values loaded. -/
theorem endToEndScenario : Obligations.EndToEndScenario :=
  ⟨ipek_scenario, dtk_scenario, encd_scenario, decd_scenario⟩

end Sys2Proof.Machine
end
